-- ==== Sys2Proof/Word.lean ====
section
/-!
DEFINITION. Word.lean: the two bit patterns the block works on (00_scope.md R8, R9, R12).
Their readings (`uval`, `sval`) and `trunc8` stand in Machine/Operands.lean.
-/

namespace Sys2Proof

/-- An 8-bit pattern: the accumulator, a data cell, the program counter, an operand (00_scope.md R12). -/
abbrev Byte := BitVec 8

/-- One 16-bit instruction word, the content of a program-store slot (00_scope.md R9, 30_encoding.md R70). -/
abbrev Word := BitVec 16

end Sys2Proof
end

