-- ==== Sys2Proof/Config.lean ====
section
/-!
DEFINITION. Config.lean: what the spec leaves open, as constants without a body (00_scope.md R9,
92_eei_decisions.md D15, D17, D26, D27). No proof can see a value of one of them, so a statement that
names one holds for every value.
-/

namespace Sys2Proof

/-- The draw `any8` of 00_scope.md R15: the n-th unspecified 8-bit value an INP answered Invalid writes
(43_io_halt.md R161). A free value, log entry 7. -/
opaque Config.inpDraw : Nat → Byte

/-- `exit_status_of_halt` on the codes 43_io_halt.md R167 leaves to the platform, those with a negative
signed value (92_eei_decisions.md D17). A free value, log entry 12. -/
opaque Config.exitStatusNegative : Byte → Nat

/-- The two values of the parameter `asm_extra_tokens` (30_encoding.md R84). -/
inductive ExtraTokens where
  | ignore
  | reject
deriving DecidableEq, Repr, Inhabited

/-- What the assembler does with a third token (30_encoding.md R84, 92_eei_decisions.md D26).
A free value, log entry 13. -/
opaque Config.asmExtraTokens : ExtraTokens

/-- How many bits the assembler's integer type has beyond the 32 every C `long` has. The spec gives no
width (30_encoding.md R88, 91_not_in_source.md N17). A free value, log entry 13. -/
opaque Config.asmParserExtraBits : Nat

/-- `asm_literal_overflow`: what a literal beyond the parser's integer type gives, an operand or a fatal
error (`none`), as a function of the literal's own text, sign and prefix with it, without what follows it in
the token (30_encoding.md R87, R88, 92_eei_decisions.md D27).
A free value, log entry 13. -/
opaque Config.asmLiteralOverflow : List Char → Option Byte

end Sys2Proof
end

