-- ==== Sys2Proof/Syntax.lean ====
section
/-!
DEFINITION. Syntax.lean: the 17 instructions, a closed set (00_scope.md R3). One constructor per row of
spec/opcode_table.json; each carries its 8-bit operand, as the pattern the word holds (30_encoding.md R72).
-/

namespace Sys2Proof

/-- An instruction is "a pair of (opcode, operand)" (00_scope.md R17). The operand's kind, from
30_encoding.md R72, is in each constructor's comment. -/
inductive Instr where
  /-- ADD, addr8 (41_arithmetic.md R121). -/
  | add (a : Byte)
  /-- SUB, addr8 (41_arithmetic.md R122). -/
  | sub (a : Byte)
  /-- MUL, addr8 (41_arithmetic.md R123). -/
  | mul (a : Byte)
  /-- DIV, addr8 (41_arithmetic.md R124). -/
  | div (a : Byte)
  /-- LDA, addr8 (42_transfer.md R140). -/
  | lda (a : Byte)
  /-- LDK, imm8 (42_transfer.md R141). -/
  | ldk (k : Byte)
  /-- STA, addr8 (42_transfer.md R142). -/
  | sta (a : Byte)
  /-- INP, addr8 (43_io_halt.md R160). -/
  | inp (a : Byte)
  /-- OUT, addr8 (43_io_halt.md R164). -/
  | out (a : Byte)
  /-- HLT, imm8 (43_io_halt.md R166). -/
  | hlt (k : Byte)
  /-- JMP, tgt8 (44_control.md R181). -/
  | jmp (t : Byte)
  /-- JEZ, tgt8 (44_control.md R182). -/
  | jez (t : Byte)
  /-- JNE, tgt8 (44_control.md R183). -/
  | jne (t : Byte)
  /-- JLZ, tgt8 (44_control.md R184). -/
  | jlz (t : Byte)
  /-- JLE, tgt8 (44_control.md R185). -/
  | jle (t : Byte)
  /-- JGZ, tgt8 (44_control.md R186). -/
  | jgz (t : Byte)
  /-- JGE, tgt8 (44_control.md R187). -/
  | jge (t : Byte)
deriving DecidableEq, Repr

end Sys2Proof
end

