-- ==== Sys2Proof/WellFormed.lean ====
section
/-!
DEFINITION. WellFormed.lean: which encoded programs are legal. An `Instr` needs no check of its own: for
each of the 17 opcodes all 256 operand values are legal (30_encoding.md R76) and the type holds no others.
What can be ill-formed is a word (30_encoding.md R75) and a program image (00_scope.md R8).
-/

namespace Sys2Proof

/-- The word encodes one of the 17 instructions: its bits 15:8 are at most 0x10 (30_encoding.md R75, R76). -/
def legalWord (w : Word) : Bool := decide (w.toNat / 256 ≤ 16)

/-- The image fits the 256 slots of the program store (00_scope.md R8, 30_encoding.md R89). -/
def imageFits (ws : List Word) : Bool := decide (ws.length ≤ 256)

end Sys2Proof
end

