-- ==== Sys2Proof/Decode.lean ====
section
/-!
DEFINITION. Decode.lean: the decoder, total over 16-bit words and rejecting an unknown opcode by its number
(30_encoding.md R76), and the encoder (30_encoding.md R77), both from the opcode map of 30_encoding.md R73.
-/

namespace Sys2Proof

/-- What the decoder answers (30_encoding.md R76): an instruction, or `Illegal(o)` with the opcode field. -/
inductive Decoded where
  | insn (i : Instr)
  | illegal (o : Byte)
deriving DecidableEq, Repr

/-- The field `opc` = `word[15:8]` (30_encoding.md R70). -/
def opcField (w : Word) : Byte := w.extractLsb' 8 8

/-- The field `imm` = `word[7:0]` (30_encoding.md R70). -/
def immField (w : Word) : Byte := w.extractLsb' 0 8

/-- `word = opc ++ imm` (30_encoding.md R70). -/
def joinFields (opc imm : Byte) : Word := opc ++ imm

/-- The opcode map, read from opcode number to instruction (30_encoding.md R73). -/
def instrOfOpcode (opc : Nat) (imm : Byte) : Option Instr :=
  match opc with
  | 0x00 => some (.add imm)
  | 0x01 => some (.sub imm)
  | 0x02 => some (.mul imm)
  | 0x03 => some (.div imm)
  | 0x04 => some (.lda imm)
  | 0x05 => some (.ldk imm)
  | 0x06 => some (.sta imm)
  | 0x07 => some (.inp imm)
  | 0x08 => some (.out imm)
  | 0x09 => some (.hlt imm)
  | 0x0A => some (.jmp imm)
  | 0x0B => some (.jez imm)
  | 0x0C => some (.jne imm)
  | 0x0D => some (.jlz imm)
  | 0x0E => some (.jle imm)
  | 0x0F => some (.jgz imm)
  | 0x10 => some (.jge imm)
  | _ => none

/-- The decoder of 30_encoding.md R76. -/
def decode (w : Word) : Decoded :=
  match instrOfOpcode (opcField w).toNat (immField w) with
  | some i => .insn i
  | none => .illegal (opcField w)

/-- The opcode map, read from instruction to opcode number (30_encoding.md R73). -/
def opcodeOf (i : Instr) : Byte :=
  match i with
  | .add _ => 0x00
  | .sub _ => 0x01
  | .mul _ => 0x02
  | .div _ => 0x03
  | .lda _ => 0x04
  | .ldk _ => 0x05
  | .sta _ => 0x06
  | .inp _ => 0x07
  | .out _ => 0x08
  | .hlt _ => 0x09
  | .jmp _ => 0x0A
  | .jez _ => 0x0B
  | .jne _ => 0x0C
  | .jlz _ => 0x0D
  | .jle _ => 0x0E
  | .jgz _ => 0x0F
  | .jge _ => 0x10

/-- The operand pattern an instruction carries (30_encoding.md R72). -/
def operandOf (i : Instr) : Byte :=
  match i with
  | .add a => a
  | .sub a => a
  | .mul a => a
  | .div a => a
  | .lda a => a
  | .ldk k => k
  | .sta a => a
  | .inp a => a
  | .out a => a
  | .hlt k => k
  | .jmp t => t
  | .jez t => t
  | .jne t => t
  | .jlz t => t
  | .jle t => t
  | .jgz t => t
  | .jge t => t

/-- The encoder `enc(m, v) = opc_of(m) ++ v` (30_encoding.md R77). -/
def encode (i : Instr) : Word := joinFields (opcodeOf i) (operandOf i)

/-- The word whose bits, numbered as spec/opcode_table.json numbers them, are the low `nbits` bits of `w`;
the instruction's bits above `nbits` are 0. -/
def tableWord (nbits w : Nat) : Word := BitVec.ofNat 16 (w % 2 ^ nbits)

/-- What the decoder reads from a row of the opcode table; `none` where the word is illegal. -/
def decodeTableWord (nbits w : Nat) : Option Instr :=
  match decode (tableWord nbits w) with
  | .insn i => some i
  | .illegal _ => none

end Sys2Proof
end

