-- ==== Sys2Proof/Machine/Operands.lean ====
section
/-!
DEFINITION. Machine/Operands.lean: the readings of an 8-bit pattern (00_scope.md R12), which give the three
operand forms of 30_encoding.md R72: addr8 and tgt8 are `uval`, imm8 is the pattern itself.
-/

namespace Sys2Proof.Machine

/-- `uval(v)`: the unsigned value, 0..255 (00_scope.md R12). -/
def uval (v : Byte) : Nat := v.toNat

/-- `sval(v)`: the two's-complement signed value, -128..127 (00_scope.md R12). -/
def sval (v : Byte) : Int := v.toInt

/-- `trunc_8(n)`: the pattern whose unsigned value is n mod 256 (00_scope.md R12). -/
def trunc8 (n : Int) : Byte := BitVec.ofInt 8 n

/-- addr8: the data cell an operand names, its unsigned value (10_state.md R28, 42_transfer.md R143). -/
def addrOf (imm : Byte) : Nat := uval imm

/-- tgt8: the slot a jump goes to, the operand's pattern (40_execution_cycle.md R106). -/
def targetOf (imm : Byte) : Byte := imm

/-- imm8: the pattern itself, whose signed reading is `sval` (30_encoding.md R72). -/
def immediateOf (imm : Byte) : Byte := imm

/-- `tdiv(n, d)`: the quotient rounded toward zero, sign(n)·sign(d)·⌊|n| / |d|⌋ (00_scope.md R13). No rule
applies it to d = 0. -/
def tdiv (n d : Int) : Int := n.sign * d.sign * ((n.natAbs / d.natAbs : Nat) : Int)

end Sys2Proof.Machine
end

