-- ==== Sys2Proof/Machine/State.lean ====
section
/-!
DEFINITION. Machine/State.lean: the state of the block (10_state.md R20), the inputs the host drives and the
outputs it has received, all as plain data, and the state right after reset (10_state.md R35).
-/

namespace Sys2Proof.Machine

/-- The data memory `D[0..255]`: (index, cell) pairs, indices strictly rising, no entry equal to 0x00,
which is what an unlisted cell holds (10_state.md R26, R35). -/
abbrev Memory := List Host.Cell

/-- The program store `P[0..255]`: (slot, word) pairs in the same canonical form; an unlisted slot holds
the zero word 0x0000 (10_state.md R25). In State by log entry 1. -/
abbrev ProgramStore := List (Nat × Word)

/-- The field `state` of the status register (10_state.md R30). The code 0b11 is never produced. -/
inductive RunState where
  | run
  | halted
  | faulted
deriving DecidableEq, Repr

/-- The field `fault_cause` of the status register (10_state.md R30, 60_exceptions.md R201).
The codes 0x03..0xFF are never produced. -/
inductive FaultCause where
  | none
  | divByZero
  | illegalOpcode
deriving DecidableEq, Repr

/-- The run-status register, four fields (10_state.md R30). No instruction can read or name it. -/
structure Status where
  state : RunState
  haltCode : Byte
  faultCause : FaultCause
  faultPc : Byte
deriving DecidableEq, Repr

/-- The host's answer to one INP request (00_scope.md R15, 43_io_halt.md R160). -/
inductive Answer where
  | value (v : Byte)
  | invalid
deriving DecidableEq, Repr

/-- Everything the spec gives the machine (10_state.md R20, R25, R32), the host's side of the interface
(10_state.md R40) and the model's counter of draws. -/
structure State where
  /-- The accumulator (10_state.md R21). -/
  acc : Byte
  /-- The program counter (10_state.md R24). -/
  pc : Byte
  /-- The data memory (10_state.md R26). -/
  dmem : Memory
  /-- The program store, which the block only reads (10_state.md R25). -/
  prog : ProgramStore
  /-- The run-status register (10_state.md R30). -/
  status : Status
  /-- An INP is waiting for the host's answer (10_state.md R32, R35). -/
  inpPending : Bool
  /-- The level of the reset input (10_state.md R40, 70_reset_and_hazards.md R230). -/
  rst : Bool
  /-- The answers the host will give to the coming INP requests, oldest first (log entry 5). -/
  answers : List Answer
  /-- The OUT values the host has received, oldest first (00_scope.md R19, log entry 8). -/
  outs : List Byte
  /-- How many draws `any8` have been used: the model's own field (log entry 7). -/
  draws : Nat
deriving DecidableEq, Repr

/-- The model's own reasons to stop with a fault: there are none. The block's two faults are defined
transitions into FAULTED (60_exceptions.md R203), so they are NEXT states, and nothing else faults
(60_exceptions.md R202). Nobody raises a `Fault`; that is safe (log entry 4). -/
inductive Fault where
deriving DecidableEq, Repr

/-- The model's reasons to refuse. -/
inductive Refusal where
  /-- The arm of an instruction that has no meaning. No arm of `exec` raises it: all 17 have one. Safe. -/
  | notModelled (mnemonic : String)
  /-- Raised by `hostLoad`, `hostLoadImage` and `clock` only, never by `step`: the host did what
  60_exceptions.md R214 forbids, for which a model has no step. Safe (log entry 11). -/
  | hostOutsideInterface
deriving DecidableEq, Repr

/-- The status register after reset (10_state.md R35). -/
def Status.reset : Status where
  state := .run
  haltCode := 0x00
  faultCause := .none
  faultPc := 0x00

/-- The machine right after reset: the values of 10_state.md R35, reset released, no program loaded
(log entry 2), no answer and no output yet (log entries 5 and 8). -/
def State.reset : State where
  acc := 0x00
  pc := 0x00
  dmem := []
  prog := []
  status := Status.reset
  inpPending := false
  rst := false
  answers := []
  outs := []
  draws := 0

end Sys2Proof.Machine
end

