-- ==== Sys2Proof/Machine/Ops.lean ====
section
/-!
DEFINITION. Machine/Ops.lean: the named operations over memory, registers, the status register and the
host's interface that every meaning is written with.
-/

namespace Sys2Proof.Machine

/-! ### A store of cells, as a canonical list -/

/-- What an unlisted cell holds: 0x00 in data memory (10_state.md R35), the zero word in the program store
(10_state.md R25). -/
def unlisted (n : Nat) : BitVec n := 0#n

/-- The content of cell `a`. -/
def cellRead {n : Nat} (m : List (Nat × BitVec n)) (a : Nat) : BitVec n :=
  match m with
  | [] => unlisted n
  | c :: rest => if c.1 = a then c.2 else cellRead rest a

/-- The store without any entry for `a`. -/
def cellErase {n : Nat} (m : List (Nat × BitVec n)) (a : Nat) : List (Nat × BitVec n) :=
  m.filter (fun c => c.1 != a)

/-- The store with the entry (a, v) before the first greater index. -/
def cellInsert {n : Nat} (m : List (Nat × BitVec n)) (a : Nat) (v : BitVec n) : List (Nat × BitVec n) :=
  match m with
  | [] => [(a, v)]
  | c :: rest => if a < c.1 then (a, v) :: c :: rest else c :: cellInsert rest a v

/-- Cell `a` holds `v` afterwards; writing what an unlisted cell holds removes the entry. -/
def cellWrite {n : Nat} (m : List (Nat × BitVec n)) (a : Nat) (v : BitVec n) : List (Nat × BitVec n) :=
  if v = unlisted n then cellErase m a else cellInsert (cellErase m a) a v

/-- The canonical form: indices strictly rising, each one of the 256 that exist (20_memory.md R50), and no
entry equal to what an unlisted cell holds. -/
def cellsWf {n : Nat} (m : List (Nat × BitVec n)) : Bool :=
  decide (m.Pairwise (fun c d => c.1 < d.1)) && m.all (fun c => decide (c.1 < 256) && decide (c.2 ≠ unlisted n))

/-- The data memory is in canonical form. -/
def Memory.wf (m : Memory) : Bool := cellsWf m

/-- The program store is in canonical form. -/
def ProgramStore.wf (p : ProgramStore) : Bool := cellsWf p

/-! ### Accumulator, program counter, memory -/

/-- `MemRead(a, 1)`, also written `D[a]` (00_scope.md R14). -/
def memRead (s : State) (a : Byte) : Byte := cellRead s.dmem (addrOf a)

/-- `MemWrite(a, 1, v)` (00_scope.md R14). -/
def memWrite (s : State) (a v : Byte) : State := { s with dmem := cellWrite s.dmem (addrOf a) v }

/-- `acc <- v` (00_scope.md R14). -/
def setAcc (s : State) (v : Byte) : State := { s with acc := v }

/-- Advance: `pc <- trunc_8(uval(pc) + 1)`, so slot 255 advances to slot 0 (40_execution_cycle.md R105). -/
def advance (s : State) : State := { s with pc := trunc8 ((uval s.pc : Int) + 1) }

/-- Redirect: `pc <- t`, with no increment afterwards (40_execution_cycle.md R106). -/
def redirect (s : State) (t : Byte) : State := { s with pc := t }

/-- `Fetch(pc)`: the word of slot `uval(pc)` (40_execution_cycle.md R102). -/
def fetch (s : State) : Word := cellRead s.prog (uval s.pc)

/-- The instruction the step will dispatch, or the illegal opcode (40_execution_cycle.md R102). -/
def fetched (s : State) : Decoded := decode (fetch s)

/-- The slot's content becomes `w`; only the host does this, before execution (10_state.md R25). -/
def storeSlot (s : State) (slot : Byte) (w : Word) : State :=
  { s with prog := cellWrite s.prog (uval slot) w }

/-! ### Taking a fault, halting, the host's ports -/

/-- `raise Fault(cause)`: cause, slot and FAULTED are recorded; acc, pc, every data cell and halt_code keep
their values (60_exceptions.md R203). There is no return from it: only reset leaves FAULTED
(60_exceptions.md R207). -/
def raiseFault (s : State) (cause : FaultCause) : State :=
  { s with status := { s.status with state := .faulted, faultCause := cause, faultPc := s.pc } }

/-- `halt(k)`: halt_code and HALTED are recorded; pc, acc and data stay (43_io_halt.md R166). -/
def haltWith (s : State) (k : Byte) : State :=
  { s with status := { s.status with state := .halted, haltCode := k } }

/-- `emit Out(v)`: one output event, which the host accepts at once (43_io_halt.md R164, 10_state.md R41). -/
def emitOut (s : State) (v : Byte) : State := { s with outs := s.outs ++ [v] }

/-- `in_req <- 1` with no answer there: the INP waits in RUN with pc at the INP (43_io_halt.md R160). -/
def waitForAnswer (s : State) : State := { s with inpPending := true }

/-- The host's answer is consumed and the request falls: `in_req <- 0` (43_io_halt.md R160). -/
def takeAnswer (s : State) (rest : List Answer) : State :=
  { s with inpPending := false, answers := rest }

/-- The next draw `any8` (43_io_halt.md R161). -/
def drawValue (s : State) : Byte := Config.inpDraw s.draws

/-- The draw is used up, so that the next one is another (log entry 7). -/
def useDraw (s : State) : State := { s with draws := s.draws + 1 }

/-- What holds while `rst` is high: the reset values of 10_state.md R35, the program store and what belongs
to the host unchanged (70_reset_and_hazards.md R230, R231, R233; log entry 9). -/
def holdReset (s : State) : State :=
  { s with acc := 0x00, pc := 0x00, dmem := [], status := Status.reset, inpPending := false }

/-- No step: HALTED and FAULTED leave everything as it is (40_execution_cycle.md R100; log entry 3). -/
def noStep (s : State) : State := s

/-- The step of an illegal word raises ILLEGAL_OPCODE and does nothing else (40_execution_cycle.md R103). -/
def illegalWord (s : State) : State := raiseFault s .illegalOpcode

end Sys2Proof.Machine
end

