-- ==== Sys2Proof/Machine/Arithmetic.lean ====
section
/-!
DEFINITION. Machine/Arithmetic.lean: ADD, SUB, MUL, DIV (41_arithmetic.md). Each computes the exact integer
result on signed values and writes its low 8 bits (41_arithmetic.md R120).
-/

namespace Sys2Proof.Machine

/-- The exact result `r` becomes `acc <- trunc_8(r)`, and pc advances (41_arithmetic.md R120). -/
def writeResult (s : State) (r : Int) : State := advance (setAcc s (trunc8 r))

/-- ADD (41_arithmetic.md R121). -/
def execAdd (a : Byte) (s : State) : Host.Outcome State Fault Refusal :=
  .next (writeResult s (sval s.acc + sval (memRead s a)))

/-- SUB: accumulator minus cell (41_arithmetic.md R122). -/
def execSub (a : Byte) (s : State) : Host.Outcome State Fault Refusal :=
  .next (writeResult s (sval s.acc - sval (memRead s a)))

/-- MUL (41_arithmetic.md R123). -/
def execMul (a : Byte) (s : State) : Host.Outcome State Fault Refusal :=
  .next (writeResult s (sval s.acc * sval (memRead s a)))

/-- DIV: a zero divisor cell raises DIV_BY_ZERO before any write (41_arithmetic.md R124, R126). -/
def execDiv (a : Byte) (s : State) : Host.Outcome State Fault Refusal :=
  if memRead s a = 0x00 then .next (raiseFault s .divByZero)
  else .next (writeResult s (tdiv (sval s.acc) (sval (memRead s a))))

end Sys2Proof.Machine
end

