-- ==== Sys2Proof/Machine/Flags.lean ====
section
/-!
DEFINITION. Machine/Flags.lean: the block has no flags (10_state.md R23). The six conditions of
44_control.md R180 are computed from the accumulator when a jump executes.
-/

namespace Sys2Proof.Machine

/-- JEZ: s = 0 (44_control.md R180). -/
def condEZ (acc : Byte) : Bool := decide (sval acc = 0)

/-- JNE: s ≠ 0 (44_control.md R180). -/
def condNE (acc : Byte) : Bool := decide (sval acc ≠ 0)

/-- JLZ: s < 0 (44_control.md R180). -/
def condLZ (acc : Byte) : Bool := decide (sval acc < 0)

/-- JLE: s ≤ 0 (44_control.md R180). -/
def condLE (acc : Byte) : Bool := decide (sval acc ≤ 0)

/-- JGZ: s > 0 (44_control.md R180). -/
def condGZ (acc : Byte) : Bool := decide (sval acc > 0)

/-- JGE: s ≥ 0 (44_control.md R180). -/
def condGE (acc : Byte) : Bool := decide (sval acc ≥ 0)

end Sys2Proof.Machine
end

