-- ==== Sys2Proof/Machine/Control.lean ====
section
/-!
DEFINITION. Machine/Control.lean: JMP and the six conditional jumps (44_control.md).
-/

namespace Sys2Proof.Machine

/-- A taken jump redirects pc to its operand; one not taken advances (44_control.md, opening paragraph). -/
def jumpIf (taken : Bool) (t : Byte) (s : State) : State :=
  if taken then redirect s (targetOf t) else advance s

/-- JMP (44_control.md R181). -/
def execJmp (t : Byte) (s : State) : Host.Outcome State Fault Refusal :=
  .next (redirect s (targetOf t))

/-- JEZ (44_control.md R182). -/
def execJez (t : Byte) (s : State) : Host.Outcome State Fault Refusal := .next (jumpIf (condEZ s.acc) t s)

/-- JNE (44_control.md R183). -/
def execJne (t : Byte) (s : State) : Host.Outcome State Fault Refusal := .next (jumpIf (condNE s.acc) t s)

/-- JLZ (44_control.md R184). -/
def execJlz (t : Byte) (s : State) : Host.Outcome State Fault Refusal := .next (jumpIf (condLZ s.acc) t s)

/-- JLE (44_control.md R185). -/
def execJle (t : Byte) (s : State) : Host.Outcome State Fault Refusal := .next (jumpIf (condLE s.acc) t s)

/-- JGZ (44_control.md R186). -/
def execJgz (t : Byte) (s : State) : Host.Outcome State Fault Refusal := .next (jumpIf (condGZ s.acc) t s)

/-- JGE (44_control.md R187). -/
def execJge (t : Byte) (s : State) : Host.Outcome State Fault Refusal := .next (jumpIf (condGE s.acc) t s)

end Sys2Proof.Machine
end

