-- ==== Sys2Proof/Machine/IoHalt.lean ====
section
/-!
DEFINITION. Machine/IoHalt.lean: INP, OUT, HLT (43_io_halt.md).
-/

namespace Sys2Proof.Machine

/-- INP: with no answer from the host it waits; a Value goes into the cell; Invalid puts a draw there
(43_io_halt.md R160, R161). -/
def execInp (a : Byte) (s : State) : Host.Outcome State Fault Refusal :=
  match s.answers with
  | [] => .next (waitForAnswer s)
  | .value v :: rest => .next (advance (memWrite (takeAnswer s rest) a v))
  | .invalid :: rest => .next (advance (memWrite (useDraw (takeAnswer s rest)) a (drawValue s)))

/-- OUT: emits the data cell, never the accumulator (43_io_halt.md R164, 90_conflicts.md C9). -/
def execOut (a : Byte) (s : State) : Host.Outcome State Fault Refusal :=
  .next (advance (emitOut s (memRead s a)))

/-- HLT: the operand itself is the halt code; pc stays (43_io_halt.md R166). -/
def execHlt (k : Byte) (s : State) : Host.Outcome State Fault Refusal :=
  .next (haltWith s (immediateOf k))

end Sys2Proof.Machine
end

