-- ==== Sys2Proof/Machine/Transfer.lean ====
section
/-!
DEFINITION. Machine/Transfer.lean: LDA, LDK, STA (42_transfer.md).
-/

namespace Sys2Proof.Machine

/-- LDA (42_transfer.md R140). -/
def execLda (a : Byte) (s : State) : Host.Outcome State Fault Refusal :=
  .next (advance (setAcc s (memRead s a)))

/-- LDK: the pattern itself (42_transfer.md R141). -/
def execLdk (k : Byte) (s : State) : Host.Outcome State Fault Refusal :=
  .next (advance (setAcc s (immediateOf k)))

/-- STA (42_transfer.md R142). -/
def execSta (a : Byte) (s : State) : Host.Outcome State Fault Refusal :=
  .next (advance (memWrite s a s.acc))

end Sys2Proof.Machine
end

