-- ==== Sys2Proof/Machine/Dispatch.lean ====
section
/-!
DEFINITION. Machine/Dispatch.lean: the 17-case dispatch (40_execution_cycle.md R104).
-/

namespace Sys2Proof.Machine

def exec (i : Instr) (s : State) : Host.Outcome State Fault Refusal :=
  match i with
  -- 41_arithmetic.md
  | .add a => Sys2Proof.Machine.execAdd a s
  | .sub a => Sys2Proof.Machine.execSub a s
  | .mul a => Sys2Proof.Machine.execMul a s
  | .div a => Sys2Proof.Machine.execDiv a s
  -- 42_transfer.md
  | .lda a => Sys2Proof.Machine.execLda a s
  | .ldk k => Sys2Proof.Machine.execLdk k s
  | .sta a => Sys2Proof.Machine.execSta a s
  -- 43_io_halt.md
  | .inp a => Sys2Proof.Machine.execInp a s
  | .out a => Sys2Proof.Machine.execOut a s
  | .hlt k => Sys2Proof.Machine.execHlt k s
  -- 44_control.md
  | .jmp t => Sys2Proof.Machine.execJmp t s
  | .jez t => Sys2Proof.Machine.execJez t s
  | .jne t => Sys2Proof.Machine.execJne t s
  | .jlz t => Sys2Proof.Machine.execJlz t s
  | .jle t => Sys2Proof.Machine.execJle t s
  | .jgz t => Sys2Proof.Machine.execJgz t s
  | .jge t => Sys2Proof.Machine.execJge t s

end Sys2Proof.Machine
end

