-- ==== Sys2Proof/Machine/Step.lean ====
section
/-!
DEFINITION. Machine/Step.lean: one step of the block (40_execution_cycle.md R100 to R104, R108).
-/

namespace Sys2Proof.Machine

/-- One step. While `rst` is high the reset values are held (70_reset_and_hazards.md R230). In HALTED and
FAULTED there is no step, so nothing changes (40_execution_cycle.md R100). In RUN the fetched word is
decoded; an illegal one faults (R103) and an instruction is executed (R104). -/
def step (s : State) : Host.Outcome State Fault Refusal :=
  if s.rst then .next (holdReset s)
  else
    match s.status.state with
    | .halted => .next (noStep s)
    | .faulted => .next (noStep s)
    | .run =>
      match fetched s with
      | .illegal _ => .next (illegalWord s)
      | .insn i => exec i s

/-- `s` with the row's instruction in the slot the next step fetches, reset released and the block in RUN, so
that the very next step runs it. It stands for the host's load of the program store (log entry 2). -/
def State.withFetchWord (s : State) (nbits w : Nat) : State :=
  { storeSlot s s.pc (tableWord nbits w) with
    rst := false
    status := { s.status with state := .run } }

end Sys2Proof.Machine
end

