-- ==== Sys2Proof/Machine/HostIface.lean ====
section
/-!
DEFINITION. Machine/HostIface.lean: the host's side of the block: the outputs of 10_state.md R40, one clock
with the input pins given (10_state.md R41, 70_reset_and_hazards.md R245), loading the program store
(60_exceptions.md R214), and the host's reading of an end (43_io_halt.md R165, R167; 60_exceptions.md R215).
-/

namespace Sys2Proof.Machine

/-- The code of the field `state` (10_state.md R30). -/
def runStateCode (r : RunState) : BitVec 2 :=
  match r with
  | .run => 0b00
  | .halted => 0b01
  | .faulted => 0b10

/-- The code of the field `fault_cause` (10_state.md R30, 60_exceptions.md R201). -/
def faultCauseCode (c : FaultCause) : Byte :=
  match c with
  | .none => 0x00
  | .divByZero => 0x01
  | .illegalOpcode => 0x02

/-- The block executes an instruction in this clock (40_execution_cycle.md R100, 70_reset_and_hazards.md R230). -/
def executing (s : State) : Bool := !s.rst && decide (s.status.state = .run)

/-- `in_req`: high while an INP waits for an answer, from the clock that fetches it (10_state.md R40, R41). -/
def portInReq (s : State) : Bool :=
  executing s &&
    match fetched s with
    | .insn (.inp _) => true
    | _ => false

/-- The OUT event of this clock, if any: `out_valid` and `out_data` (10_state.md R40, R41). -/
def portOut (s : State) : Option Byte :=
  if executing s then
    match fetched s with
    | .insn (.out a) => some (memRead s a)
    | _ => none
  else none

/-- The outputs of the block (10_state.md R40). `outData` is `none` where `out_valid` is low, when the spec
gives it no value (log entry 10). -/
structure Ports where
  ifAddr : Byte
  inReq : Bool
  outValid : Bool
  outData : Option Byte
  halted : Bool
  haltCode : Byte
  faulted : Bool
  faultCause : Byte
  faultPc : Byte
deriving DecidableEq, Repr

/-- The outputs, as a function of the state (10_state.md R40). -/
def ports (s : State) : Ports where
  ifAddr := s.pc
  inReq := portInReq s
  outValid := (portOut s).isSome
  outData := portOut s
  halted := decide (s.status.state = .halted)
  haltCode := s.status.haltCode
  faulted := decide (s.status.state = .faulted)
  faultCause := faultCauseCode s.status.faultCause
  faultPc := s.status.faultPc

/-- The inputs the host drives in one clock (10_state.md R40). -/
structure Pins where
  rst : Bool
  inValid : Bool
  inInvalid : Bool
  inData : Byte
deriving DecidableEq, Repr

/-- The answer on the pins, when exactly one of `in_valid` and `in_invalid` is high (10_state.md R41). -/
def Pins.answer (p : Pins) : Answer := if p.inValid then .value p.inData else .invalid

/-- One clock with the given inputs: the step, for which an INP sees the answer of this clock
(10_state.md R41). Both answers at once, an answer with no request, and a second answer to one request are
what the host must not do, and are refused (60_exceptions.md R214). -/
def clock (p : Pins) (s : State) : Host.Outcome State Fault Refusal :=
  if p.inValid && p.inInvalid then .refused .hostOutsideInterface
  else if p.inValid || p.inInvalid then
    if portInReq { s with rst := p.rst } && s.answers.isEmpty then
      step { s with rst := p.rst, answers := [p.answer] }
    else .refused .hostOutsideInterface
  else step { s with rst := p.rst }

/-- The host writes one slot of the program store, which it may do only while `rst` = 1 (60_exceptions.md R214). -/
def hostLoad (slot : Byte) (w : Word) (s : State) : Host.Outcome State Fault Refusal :=
  if s.rst then .next (storeSlot s slot w) else .refused .hostOutsideInterface

/-- The program store whose slots from `i` on hold the words in order, and every other slot the zero word
(10_state.md R25, 30_encoding.md R92). -/
def imageFrom (i : Nat) (ws : List Word) : ProgramStore :=
  match ws with
  | [] => []
  | w :: rest => if w = unlisted 16 then imageFrom (i + 1) rest else (i, w) :: imageFrom (i + 1) rest

/-- The host loads a whole image while `rst` = 1; every slot it does not load holds the zero word
(10_state.md R25). An image that does not fit is outside the interface. -/
def hostLoadImage (ws : List Word) (s : State) : Host.Outcome State Fault Refusal :=
  if s.rst && imageFits ws then .next { s with prog := imageFrom 0 ws } else .refused .hostOutsideInterface

/-- `exit_status_of_halt`: the signed value where it is not negative, the platform's value otherwise
(43_io_halt.md R167; log entry 12). -/
def exitStatusOfHalt (k : Byte) : Nat := if sval k < 0 then Config.exitStatusNegative k else (sval k).toNat

/-- The host's exit status at the end of a run: the halt code's, 1 for a fault, none while the block runs
(60_exceptions.md R214, R215). -/
def exitStatus (s : State) : Option Nat :=
  match s.status.state with
  | .run => none
  | .halted => some (exitStatusOfHalt s.status.haltCode)
  | .faulted => some 1

/-- The text the host prints for one OUT event: the signed decimal value and a newline (43_io_halt.md R165). -/
def outText (v : Byte) : List Char :=
  (if sval v < 0 then ['-'] else []) ++ Nat.toDigits 10 (sval v).natAbs ++ ['\n']

end Sys2Proof.Machine
end

