-- ==== Sys2Proof/Machine/Assembler.lean ====
section
/-!
DEFINITION. Machine/Assembler.lean: from source text to program words (30_encoding.md R80 to R92). The
assembler is software outside the block (00_scope.md R6); it is modelled because it fixes which programs exist.
-/

namespace Sys2Proof.Machine

/-- Why an assembly is fatal (30_encoding.md R86, R87, R84, R88). -/
inductive AsmError where
  | invalidOperator
  | invalidOperand
  /-- A third token, where `asm_extra_tokens` is reject. -/
  | extraToken
  /-- A literal beyond the parser's integer type, where `asm_literal_overflow` gives a fatal error. -/
  | literalOverflow
deriving DecidableEq, Repr

/-- What assembling a text gives: the instructions in program order, or a fatal error and no program
(30_encoding.md R90). -/
inductive AsmResult where
  | program (is : List Instr)
  | fatal (e : AsmError)
deriving DecidableEq, Repr

/-- The host's exit status after a fatal assembly error (30_encoding.md R90). -/
def asmErrorExitStatus : Nat := 1

/-- The whitespace characters: space, HT, LF, VT, FF, CR (30_encoding.md R82). -/
def isAsmSpace (c : Char) : Bool := c.toNat == 32 || (decide (9 ≤ c.toNat) && decide (c.toNat ≤ 13))

/-- The text before the line's first `;` (30_encoding.md R81). -/
def beforeComment (line : List Char) : List Char := line.takeWhile (fun c => c != ';')

/-- `token` as a list with nothing in it where it is empty. -/
def tokenList (token : List Char) : List (List Char) := if token.isEmpty then [] else [token]

/-- The text split on whitespace, `token` being the one begun (30_encoding.md R84). Leading and trailing
whitespace yields no token, which is the trimming of 30_encoding.md R82. -/
def tokensFrom (token cs : List Char) : List (List Char) :=
  match cs with
  | [] => tokenList token
  | c :: rest => if isAsmSpace c then tokenList token ++ tokensFrom [] rest else tokensFrom (token ++ [c]) rest

/-- The tokens of a line's significant text. A line with none is discarded (30_encoding.md R83). -/
def lineTokens (line : List Char) : List (List Char) := tokensFrom [] (beforeComment line)

/-- The 17 mnemonics (30_encoding.md R73, R86). -/
def mnemonicTable : List (List Char × (Byte → Instr)) :=
  [(['A', 'D', 'D'], .add), (['S', 'U', 'B'], .sub), (['M', 'U', 'L'], .mul), (['D', 'I', 'V'], .div),
   (['L', 'D', 'A'], .lda), (['L', 'D', 'K'], .ldk), (['S', 'T', 'A'], .sta), (['I', 'N', 'P'], .inp),
   (['O', 'U', 'T'], .out), (['H', 'L', 'T'], .hlt), (['J', 'M', 'P'], .jmp), (['J', 'E', 'Z'], .jez),
   (['J', 'N', 'E'], .jne), (['J', 'L', 'Z'], .jlz), (['J', 'L', 'E'], .jle), (['J', 'G', 'Z'], .jgz),
   (['J', 'G', 'E'], .jge)]

/-- The instruction a mnemonic token names, ignoring letter case (30_encoding.md R86). -/
def mnemonicOf (token : List Char) : Option (Byte → Instr) :=
  (mnemonicTable.find? (fun row => row.1 == token.map Char.toUpper)).map (·.2)

/-- The value of a digit character in base 8, 10 or 16; `none` for any other character. -/
def digitOf (base : Nat) (c : Char) : Option Nat :=
  let n := c.toNat
  let d := if 48 ≤ n ∧ n ≤ 57 then n - 48
    else if 97 ≤ n ∧ n ≤ 102 then n - 87
    else if 65 ≤ n ∧ n ≤ 70 then n - 55
    else base
  if d < base then some d else none

/-- The number digit characters write. -/
def numeral (base : Nat) (ds : List Char) : Nat := ds.foldl (fun n c => n * base + (digitOf base c).getD 0) 0

/-- The digits in front, as many as there are, with the number they write; `none` where there is none. -/
def readDigits (base : Nat) (cs : List Char) : Option (List Char × Nat) :=
  let ds := cs.takeWhile (fun c => (digitOf base c).isSome)
  if ds.isEmpty then none else some (ds, numeral base ds)

/-- `x` or `X` and hexadecimal digits, read after the `0`. -/
def readHex (cs : List Char) : Option (List Char × Nat) :=
  match cs with
  | [] => none
  | c :: rest => if c == 'x' || c == 'X' then (readDigits 16 rest).map (fun p => (c :: p.1, p.2)) else none

/-- The magnitude, hexadecimal, octal or decimal: the longest prefix that fits, with its number
(30_encoding.md R87). -/
def readMagnitude (cs : List Char) : Option (List Char × Nat) :=
  match cs with
  | [] => none
  | c :: rest =>
    if c == '0' then
      match readHex rest with
      | some p => some (c :: p.1, p.2)
      | none => readDigits 8 (c :: rest)
    else readDigits 10 (c :: rest)

/-- The literal, an optional sign and a magnitude: the longest prefix that fits, with its number; `none`
where the parse consumes zero characters (30_encoding.md R87). -/
def readLiteral (cs : List Char) : Option (List Char × Int) :=
  match cs with
  | [] => none
  | c :: rest =>
    if c == '-' then (readMagnitude rest).map (fun p => (c :: p.1, -(p.2 : Int)))
    else if c == '+' then (readMagnitude rest).map (fun p => (c :: p.1, (p.2 : Int)))
    else (readMagnitude (c :: rest)).map (fun p => (p.1, (p.2 : Int)))

/-- The number of the token's literal (30_encoding.md R87). -/
def parseLiteral (token : List Char) : Option Int := (readLiteral token).map (·.2)

/-- The text of the token's literal, without the characters after it, which are ignored; empty where there
is no literal (30_encoding.md R87, 92_eei_decisions.md D27). -/
def literalText (token : List Char) : List Char := ((readLiteral token).map (·.1)).getD []

/-- `n` is a value of a signed integer type of `bits` bits. -/
def fitsSigned (bits : Nat) (n : Int) : Bool :=
  decide (-((2 ^ (bits - 1) : Nat) : Int) ≤ n) && decide (n < ((2 ^ (bits - 1) : Nat) : Int))

/-- `n` is in the range of the parser's integer type: any 32-bit value is, and a greater one where the type
is wider (30_encoding.md R88; log entry 13). -/
def parserHolds (n : Int) : Bool := fitsSigned 32 n || fitsSigned (32 + Config.asmParserExtraBits) n

/-- The operand a token gives: the literal's low 8 bits, or, beyond the parser's integer type, what
`asm_literal_overflow` gives for the literal's text (30_encoding.md R87, R88, 92_eei_decisions.md D27). -/
def operandOfToken (token : List Char) : Except AsmError Byte :=
  match parseLiteral token with
  | none => .error .invalidOperand
  | some n =>
    if parserHolds n then .ok (trunc8 n)
    else
      match Config.asmLiteralOverflow (literalText token) with
      | some v => .ok v
      | none => .error .literalOverflow

/-- The instruction of an effective line, from its tokens: mnemonic, operand text (empty where there is
none), further tokens (30_encoding.md R84, R85, R86, R87). -/
def instrOfTokens (mnemonic operand : List Char) (extra : List (List Char)) : Except AsmError Instr :=
  match mnemonicOf mnemonic with
  | none => .error .invalidOperator
  | some f =>
    match operandOfToken operand with
    | .error e => .error e
    | .ok v => if extra.isEmpty then .ok (f v) else
        match Config.asmExtraTokens with
        | .ignore => .ok (f v)
        | .reject => .error .extraToken

/-- One line: no instruction where it is discarded (30_encoding.md R83), otherwise exactly one
(30_encoding.md R85). -/
def assembleLine (line : List Char) : Except AsmError (Option Instr) :=
  match lineTokens line with
  | [] => .ok none
  | m :: rest => (instrOfTokens m (rest.headD []) rest.tail).map some

/-- One more instruction before those of the later lines. -/
def AsmResult.cons (i : Instr) (r : AsmResult) : AsmResult :=
  match r with
  | .program is => .program (i :: is)
  | .fatal e => .fatal e

/-- The lines in order while `room` slots are left; later lines are not examined (30_encoding.md R89). -/
def assembleLines (room : Nat) (lines : List (List Char)) : AsmResult :=
  match lines with
  | [] => .program []
  | l :: rest =>
    if room = 0 then .program []
    else
      match assembleLine l with
      | .error e => .fatal e
      | .ok none => assembleLines room rest
      | .ok (some i) => (assembleLines (room - 1) rest).cons i

/-- A text as its lines, `line` being the one begun (30_encoding.md R80). -/
def linesFrom (line cs : List Char) : List (List Char) :=
  match cs with
  | [] => [line]
  | c :: rest => if c == '\n' then line :: linesFrom [] rest else linesFrom (line ++ [c]) rest

/-- A source program: plain text, one instruction per line, at most 256 (30_encoding.md R80, R89). -/
def assemble (text : List Char) : AsmResult := assembleLines 256 (linesFrom [] text)

/-- The words of a program, from slot 0 on (30_encoding.md R77, R92). -/
def programWords (is : List Instr) : List Word := is.map encode

/-- The program store a program assembles to (30_encoding.md R92). -/
def programImage (is : List Instr) : ProgramStore := imageFrom 0 (programWords is)

end Sys2Proof.Machine
end

