-- ==== Sys2Proof/Safety.lean ====
section
/-!
DEFINITION. Safety.lean: how a run ends (00_scope.md R19, 40_execution_cycle.md R110), what a safe state is,
the invariant of the machine, and the words frames and hazards are stated in.
-/

namespace Sys2Proof.Machine

/-- What the host observes at the end of a run (00_scope.md R19). -/
inductive RunEnd where
  /-- HALTED, with the halt code and the OUT values in order. -/
  | halted (code : Byte) (outs : List Byte)
  /-- FAULTED, with the cause. -/
  | faulted (cause : FaultCause)
deriving DecidableEq, Repr

/-- How the run has ended, if it has; a run that never ends has no end (40_execution_cycle.md R110). -/
def runEnd (s : State) : Option RunEnd :=
  match s.status.state with
  | .run => none
  | .halted => some (.halted s.status.haltCode s.outs)
  | .faulted => some (.faulted s.status.faultCause)

/-- No runtime fault has stopped the block (60_exceptions.md R200). -/
def Safe (s : State) : Prop := s.status.state ≠ .faulted

/-- The status register, the fetched word and the faulting cell fit together: in RUN nothing is recorded; in
HALTED pc is at the HLT that gave the code; in FAULTED pc is at the faulting slot and the recorded cause
holds there (10_state.md R30, R35, 40_execution_cycle.md R107, 60_exceptions.md R201, R203). -/
def StatusFits (s : State) : Prop :=
  match s.status.state with
  | .run => s.status = Status.reset
  | .halted => s.status = { Status.reset with state := .halted, haltCode := s.status.haltCode } ∧
      fetched s = .insn (.hlt s.status.haltCode)
  | .faulted => s.status.haltCode = 0x00 ∧ s.status.faultPc = s.pc ∧
      match s.status.faultCause with
      | .none => False
      | .divByZero => ∃ a, fetched s = .insn (.div a) ∧ memRead s a = 0x00
      | .illegalOpcode => ∃ o, fetched s = .illegal o

/-- A pending request stands only in RUN with pc at an INP the host has not answered (10_state.md R32). -/
def WaitFits (s : State) : Prop :=
  s.inpPending = true → s.status.state = .run ∧ ∃ a, fetched s = .insn (.inp a)

/-- The invariant of the machine. -/
structure Inv (s : State) : Prop where
  data : Memory.wf s.dmem = true
  prog : ProgramStore.wf s.prog = true
  status : StatusFits s
  wait : WaitFits s

/-- The block executes an instruction in its next step (40_execution_cycle.md R100, 70_reset_and_hazards.md R230). -/
def Running (s : State) : Prop := s.rst = false ∧ s.status.state = .run

/-- The instruction's word is the opcode number in bits 15:8 and the operand in bits 7:0 (30_encoding.md R70). -/
def EncodedAs (i : Instr) (opc : Nat) (v : Byte) : Prop := (encode i).toNat = 256 * opc + v.toNat

/-- Every data cell reads the same. -/
def SameData (s t : State) : Prop := ∀ b, memRead t b = memRead s b

/-- Every data cell but cell `a` reads the same. -/
def SameDataExcept (a : Byte) (s t : State) : Prop := ∀ b, b ≠ a → memRead t b = memRead s b

/-- The program store and the level of the reset input are the same (20_memory.md R59). -/
def SameProgram (s t : State) : Prop := t.prog = s.prog ∧ t.rst = s.rst

/-- The host's interface is untouched: no answer taken, no request raised or dropped, nothing emitted, no
draw used (20_memory.md R53). -/
def SameHostSide (s t : State) : Prop :=
  t.inpPending = s.inpPending ∧ t.answers = s.answers ∧ t.outs = s.outs ∧ t.draws = s.draws

/-- Cell `a` holds `x`: a LDA of it loads `x`, and an OUT of it emits `x`. -/
def LoadsAndEmits (a x : Byte) (t : State) : Prop :=
  cellRead t.dmem a.toNat = x ∧ exec (.lda a) t = .next { t with acc := x, pc := t.pc + 1 } ∧
    exec (.out a) t = .next { t with outs := t.outs ++ [x], pc := t.pc + 1 }

/-- Each conditional jump, to any target, goes where the comparison of `x`, signed, with zero sends it. -/
def BranchesOn (x : Byte) (t : State) : Prop :=
  ∀ v : Byte,
    exec (.jez v) t = .next { t with pc := if x.toInt = 0 then v else t.pc + 1 } ∧
    exec (.jne v) t = .next { t with pc := if x.toInt ≠ 0 then v else t.pc + 1 } ∧
    exec (.jlz v) t = .next { t with pc := if x.toInt < 0 then v else t.pc + 1 } ∧
    exec (.jle v) t = .next { t with pc := if x.toInt ≤ 0 then v else t.pc + 1 } ∧
    exec (.jgz v) t = .next { t with pc := if x.toInt > 0 then v else t.pc + 1 } ∧
    exec (.jge v) t = .next { t with pc := if x.toInt ≥ 0 then v else t.pc + 1 }

/-- `p` is the slot after `pc`, modulo 256 (40_execution_cycle.md R105). -/
def IsNextSlot (pc p : Byte) : Prop := p.toNat = (pc.toNat + 1) % 256

end Sys2Proof.Machine
end

