-- ==== Sys2Proof/Certificates/Slice0/Obligations.lean ====
section
/-!
DEFINITION. Certificates/Slice0/Obligations.lean: the statements for the provers. Where a rule gives a value,
the statement spells it out in the library's own terms (`toNat`, `toInt`, `%`), not in the model's helpers.
-/

open Sys2Proof Sys2Proof.Machine

/-! ### Reset -/

/-- The values of 10_state.md section 8 in `State.reset`. That no slot is loaded, that `rst` is low and that the
host's lists are empty are the model's choices (log entries 2, 5, 8, 9). -/
def Obligations.ResetStateValues : Prop :=
  State.reset.acc = 0x00 ∧ State.reset.pc = 0x00 ∧ (∀ n, cellRead State.reset.dmem n = 0x00) ∧
    State.reset.status = { state := .run, haltCode := 0x00, faultCause := .none, faultPc := 0x00 } ∧
    State.reset.inpPending = false ∧ State.reset.rst = false ∧ (∀ n, cellRead State.reset.prog n = 0x0000) ∧
    State.reset.answers = [] ∧ State.reset.outs = []

/-- R230, R231: from any state, with `rst` high the step holds the reset values and keeps the program store;
when `rst` falls, slot 0 is fetched. -/
def Obligations.ResetHeldFromAnyState : Prop :=
  ∀ s : State, s.rst = true →
    ∃ t, step s = .next t ∧ t.rst = true ∧ t.acc = 0x00 ∧ t.pc = 0x00 ∧ (∀ n, cellRead t.dmem n = 0x00) ∧
      t.status = { state := .run, haltCode := 0x00, faultCause := .none, faultPc := 0x00 } ∧
      t.inpPending = false ∧ portInReq t = false ∧ portOut t = none ∧ t.prog = s.prog ∧
      fetch { t with rst := false } = cellRead s.prog 0

/-! ### Fetch, decode, dispatch -/

/-- 40_execution_cycle.md section 2: the step fetches slot `uval(pc)`, decodes, and executes the instruction. -/
def Obligations.StepRunsFetchedInstr : Prop :=
  ∀ (s : State) (i : Instr), Running s → decode (cellRead s.prog s.pc.toNat) = .insn i → step s = exec i s

/-- R103: an illegal word makes the step raise ILLEGAL_OPCODE and do nothing else. -/
def Obligations.IllegalWordFaults : Prop :=
  ∀ s : State, Running s → 0x11 ≤ (cellRead s.prog s.pc.toNat).toNat / 256 →
    step s = .next { s with
      status := { s.status with state := .faulted, faultCause := .illegalOpcode, faultPc := s.pc } }

/-- 95_test_vectors.md V-DEC-1 to V-DEC-8 and one word of each family, from the map of 30_encoding.md section 3. -/
def Obligations.DecodeKnownWords : Prop :=
  decode 0x0000 = .insn (.add 0x00) ∧ decode 0x030B = .insn (.div 0x0B) ∧ decode 0x05FF = .insn (.ldk 0xFF) ∧
    decode 0x060A = .insn (.sta 0x0A) ∧ decode 0x0703 = .insn (.inp 0x03) ∧ decode 0x092A = .insn (.hlt 0x2A) ∧
    decode 0x0A80 = .insn (.jmp 0x80) ∧ decode 0x10FF = .insn (.jge 0xFF) ∧ decode 0x1100 = .illegal 0x11 ∧
    decode 0xFFFF = .illegal 0xFF ∧ decode 0x8005 = .illegal 0x80

/-- R77: encoding and decoding are inverse, on every instruction and on every legal word. -/
def Obligations.EncodeDecodeInverse : Prop :=
  (∀ i : Instr, encode i = opcodeOf i ++ operandOf i ∧ decode (encode i) = .insn i) ∧
    ∀ w : Word, legalWord w = true → ∃ i, decode w = .insn i ∧ encode i = w

/-- 30_encoding.md section 4: the decoder is total; it yields an instruction with the word's opcode number and
operand exactly when bits 15:8 are at most 0x10, and the illegal opcode otherwise. -/
def Obligations.DecoderTotalByOpcodeField : Prop :=
  ∀ w : Word,
    (w.toNat / 256 ≤ 0x10 → ∃ i, decode w = .insn i ∧ (opcodeOf i).toNat = w.toNat / 256 ∧
      (operandOf i).toNat = w.toNat % 256) ∧
    (0x11 ≤ w.toNat / 256 → ∃ o, decode w = .illegal o ∧ o.toNat = w.toNat / 256)

/-- R74: the zero word is `ADD 0`: it adds cell 0, advances, and neither halts nor faults. -/
def Obligations.ZeroWordAddsCellZero : Prop :=
  decode 0x0000 = .insn (.add 0x00) ∧
    ∀ s : State, Running s → cellRead s.prog s.pc.toNat = 0x0000 →
      ∃ x p, step s = .next { s with acc := x, pc := p } ∧
        (x.toNat : Int) = (s.acc.toInt + (cellRead s.dmem 0).toInt) % 256 ∧ IsNextSlot s.pc p

/-! ### Arithmetic -/

/-- R121, R122, R123: the exact result on signed values, modulo 256, into acc; pc advances; nothing else
changes. The low byte of a product is the same on unsigned values. -/
def Obligations.AddSubMulWrap : Prop :=
  ∀ (s : State) (a m p : Byte), m = cellRead s.dmem a.toNat → IsNextSlot s.pc p →
    (EncodedAs (.add a) 0x00 a ∧ ∃ x, exec (.add a) s = .next { s with acc := x, pc := p } ∧
      (x.toNat : Int) = (s.acc.toInt + m.toInt) % 256) ∧
    (EncodedAs (.sub a) 0x01 a ∧ ∃ x, exec (.sub a) s = .next { s with acc := x, pc := p } ∧
      (x.toNat : Int) = (s.acc.toInt - m.toInt) % 256) ∧
    (EncodedAs (.mul a) 0x02 a ∧ ∃ x, exec (.mul a) s = .next { s with acc := x, pc := p } ∧
      (x.toNat : Int) = (s.acc.toInt * m.toInt) % 256 ∧ x.toNat = (s.acc.toNat * m.toNat) % 256)

/-- R124, R126, R127: a zero divisor cell faults before any write; otherwise acc takes the quotient rounded
toward zero, modulo 256, and pc advances; -128 / -1 gives 0x80. -/
def Obligations.DivTruncatesOrFaults : Prop :=
  ∀ (s : State) (a m p : Byte), m = cellRead s.dmem a.toNat → IsNextSlot s.pc p →
    EncodedAs (.div a) 0x03 a ∧
    (m = 0x00 → exec (.div a) s = .next { s with
      status := { s.status with state := .faulted, faultCause := .divByZero, faultPc := s.pc } }) ∧
    (m ≠ 0x00 → ∃ x, exec (.div a) s = .next { s with acc := x, pc := p } ∧
      (x.toNat : Int) = (s.acc.toInt.tdiv m.toInt) % 256 ∧ (s.acc = 0x80 → m = 0xFF → x = 0x80))

/-! ### Transfer -/

/-- R140, R141: LDA takes the cell at the unsigned operand, LDK the operand itself; only acc and pc change. -/
def Obligations.LoadsWriteAccumulator : Prop :=
  ∀ (s : State) (v p : Byte), IsNextSlot s.pc p →
    (EncodedAs (.lda v) 0x04 v ∧
      exec (.lda v) s = .next { s with acc := cellRead s.dmem v.toNat, pc := p }) ∧
    (EncodedAs (.ldk v) 0x05 v ∧ exec (.ldk v) s = .next { s with acc := v, pc := p })

/-- R142: STA stores acc in the cell at the unsigned operand and in no other; acc and the rest stay. -/
def Obligations.StaStoresOneCell : Prop :=
  ∀ (s : State) (a p : Byte), IsNextSlot s.pc p →
    EncodedAs (.sta a) 0x06 a ∧
    ∃ d, exec (.sta a) s = .next { s with dmem := d, pc := p } ∧ cellRead d a.toNat = s.acc ∧
      ∀ n, n ≠ a.toNat → cellRead d n = cellRead s.dmem n

/-! ### Input, output, halt -/

/-- 43_io_halt.md section 1. A Value goes into the cell at the unsigned operand; Invalid puts the next draw
there, whatever it is (a statement about the free value `Config.inpDraw`, log entry 7); either way the request
falls, the answer is consumed and pc advances. That the host's answers stand in a list is log entry 5. -/
def Obligations.InpStoresAnswer : Prop :=
  ∀ (s : State) (a p : Byte) (rest : List Answer), IsNextSlot s.pc p → EncodedAs (.inp a) 0x07 a ∧
    (∀ v, s.answers = .value v :: rest → ∃ d,
      exec (.inp a) s = .next { s with dmem := d, pc := p, inpPending := false, answers := rest } ∧
      cellRead d a.toNat = v ∧ ∀ n, n ≠ a.toNat → cellRead d n = cellRead s.dmem n) ∧
    (s.answers = .invalid :: rest → ∃ d,
      exec (.inp a) s = .next { s with
        dmem := d, pc := p, inpPending := false, answers := rest, draws := s.draws + 1 } ∧
      cellRead d a.toNat = Config.inpDraw s.draws ∧ ∀ n, n ≠ a.toNat → cellRead d n = cellRead s.dmem n)

/-- 43_io_halt.md section 1 and V-INP-4: with no answer the INP waits, for as long as the host gives none: the
request stands, in_req is high, and nothing else changes, however many steps pass. That waiting is a step with
this next state is log entry 6. -/
def Obligations.InpWaitsWithoutAnswer : Prop :=
  ∀ (s : State) (a : Byte), Running s → fetched s = .insn (.inp a) → s.answers = [] →
    exec (.inp a) s = .next { s with inpPending := true } ∧
      ∀ k, core.run (k + 1) s = .next { s with inpPending := true } ∧ portInReq { s with inpPending := true } = true

/-- R164: OUT emits the data cell at the unsigned operand, not the accumulator, as one event of its step, and
waits for nothing. -/
def Obligations.OutEmitsCell : Prop :=
  ∀ (s : State) (a p : Byte), IsNextSlot s.pc p → EncodedAs (.out a) 0x08 a ∧
    exec (.out a) s = .next { s with outs := s.outs ++ [cellRead s.dmem a.toNat], pc := p } ∧
    (Running s → fetched s = .insn (.out a) →
      (ports s).outValid = true ∧ (ports s).outData = some (cellRead s.dmem a.toNat))

/-- R166: HLT records its operand as the halt code and stops the block; pc, acc and data stay; the `halted`
output goes high. -/
def Obligations.HltRecordsOperand : Prop :=
  ∀ (s : State) (k : Byte), EncodedAs (.hlt k) 0x09 k ∧
    exec (.hlt k) s = .next { s with status := { s.status with state := .halted, haltCode := k } } ∧
    ∀ t, exec (.hlt k) s = .next t → (ports t).halted = true ∧ (ports t).haltCode = k ∧
      (t.rst = false → ∀ u, step t = .next u → u = t)

/-! ### Control transfer -/

/-- R181 to R187: JMP redirects; each conditional jump redirects when its comparison of the signed accumulator
with zero holds, and advances otherwise. -/
def Obligations.JumpsCompareSignedAccumulator : Prop :=
  ∀ (s : State) (t p : Byte), IsNextSlot s.pc p →
    (EncodedAs (.jmp t) 0x0A t ∧ exec (.jmp t) s = .next { s with pc := t }) ∧
    (EncodedAs (.jez t) 0x0B t ∧ exec (.jez t) s = .next { s with pc := if s.acc.toInt = 0 then t else p }) ∧
    (EncodedAs (.jne t) 0x0C t ∧ exec (.jne t) s = .next { s with pc := if s.acc.toInt ≠ 0 then t else p }) ∧
    (EncodedAs (.jlz t) 0x0D t ∧ exec (.jlz t) s = .next { s with pc := if s.acc.toInt < 0 then t else p }) ∧
    (EncodedAs (.jle t) 0x0E t ∧ exec (.jle t) s = .next { s with pc := if s.acc.toInt ≤ 0 then t else p }) ∧
    (EncodedAs (.jgz t) 0x0F t ∧ exec (.jgz t) s = .next { s with pc := if s.acc.toInt > 0 then t else p }) ∧
    (EncodedAs (.jge t) 0x10 t ∧ exec (.jge t) s = .next { s with pc := if s.acc.toInt ≥ 0 then t else p })

/-- R180: which patterns of acc take each conditional jump, on its bits, and that this is its signed comparison
with zero. -/
def Obligations.JumpsOnAccumulatorBits : Prop :=
  ∀ (s : State) (t p : Byte), IsNextSlot s.pc p →
    exec (.jez t) s = .next { s with pc := if s.acc = 0x00 then t else p } ∧
    exec (.jne t) s = .next { s with pc := if s.acc ≠ 0x00 then t else p } ∧
    exec (.jlz t) s = .next { s with pc := if s.acc.getLsbD 7 = true then t else p } ∧
    exec (.jle t) s = .next { s with pc := if s.acc.getLsbD 7 = true ∨ s.acc = 0x00 then t else p } ∧
    exec (.jgz t) s = .next { s with pc := if s.acc.getLsbD 7 = false ∧ s.acc ≠ 0x00 then t else p } ∧
    exec (.jge t) s = .next { s with pc := if s.acc.getLsbD 7 = false then t else p } ∧
    (s.acc.toInt = 0 ↔ s.acc = 0x00) ∧ (s.acc.toInt ≠ 0 ↔ s.acc ≠ 0x00) ∧
    (s.acc.toInt < 0 ↔ s.acc.getLsbD 7 = true) ∧ (s.acc.toInt ≤ 0 ↔ s.acc.getLsbD 7 = true ∨ s.acc = 0x00) ∧
    (s.acc.toInt > 0 ↔ s.acc.getLsbD 7 = false ∧ s.acc ≠ 0x00) ∧ (s.acc.toInt ≥ 0 ↔ s.acc.getLsbD 7 = false)

/-! ### Frames -/

/-- ADD, SUB, MUL, LDA, LDK: every data cell, the program store, the status register and the host's side are
unchanged. -/
def Obligations.FrameAccumulatorForms : Prop :=
  ∀ (v : Byte) (s t : State),
    (exec (.add v) s = .next t ∨ exec (.sub v) s = .next t ∨ exec (.mul v) s = .next t ∨
      exec (.lda v) s = .next t ∨ exec (.ldk v) s = .next t) →
    SameData s t ∧ SameProgram s t ∧ SameHostSide s t ∧ t.status = s.status

/-- DIV: data, program and the host's side are unchanged; the status register changes only where the divisor
cell is zero, and then acc, pc and halt_code stay. -/
def Obligations.FrameDiv : Prop :=
  ∀ (a : Byte) (s t : State), exec (.div a) s = .next t →
    SameData s t ∧ SameProgram s t ∧ SameHostSide s t ∧
      (memRead s a ≠ 0x00 → t.status = s.status) ∧
      (memRead s a = 0x00 → t.acc = s.acc ∧ t.pc = s.pc ∧ t.status.haltCode = s.status.haltCode)

/-- STA and INP: every data cell but the one at the operand's unsigned value, acc, the program store, the status
register and the OUT events are unchanged; STA leaves the host's side alone; a waiting INP
changes no cell (that it waits in a step is log entry 6). -/
def Obligations.FrameStoringForms : Prop :=
  ∀ (a : Byte) (s t : State),
    (exec (.sta a) s = .next t →
      SameDataExcept a s t ∧ t.acc = s.acc ∧ t.status = s.status ∧ SameProgram s t ∧ SameHostSide s t) ∧
    (exec (.inp a) s = .next t →
      SameDataExcept a s t ∧ t.acc = s.acc ∧ t.status = s.status ∧ SameProgram s t ∧ t.outs = s.outs ∧
        (s.answers = [] → SameData s t ∧ t.pc = s.pc))

/-- OUT and HLT: acc, every data cell, the program store and the host's side are unchanged, but for OUT's event;
OUT leaves the status register, HLT leaves pc and the fault fields. -/
def Obligations.FrameOutHlt : Prop :=
  ∀ (v : Byte) (s t : State),
    (exec (.out v) s = .next t → t.acc = s.acc ∧ SameData s t ∧ SameProgram s t ∧ t.status = s.status ∧
      t.inpPending = s.inpPending ∧ t.answers = s.answers ∧ t.draws = s.draws) ∧
    (exec (.hlt v) s = .next t → t.acc = s.acc ∧ t.pc = s.pc ∧ SameData s t ∧ SameProgram s t ∧ SameHostSide s t ∧
      t.status.faultCause = s.status.faultCause ∧ t.status.faultPc = s.status.faultPc)

/-- The seven jumps: nothing but pc changes. -/
def Obligations.FrameJumps : Prop :=
  ∀ (v : Byte) (s t : State),
    (exec (.jmp v) s = .next t ∨ exec (.jez v) s = .next t ∨ exec (.jne v) s = .next t ∨
      exec (.jlz v) s = .next t ∨ exec (.jle v) s = .next t ∨ exec (.jgz v) s = .next t ∨
      exec (.jge v) s = .next t) →
    t.acc = s.acc ∧ SameData s t ∧ SameProgram s t ∧ SameHostSide s t ∧ t.status = s.status

/-! ### Whole-machine rules -/

/-- 10_state.md section 2: while the block runs, only ADD, SUB, MUL, DIV, LDA and LDK change acc. -/
def Obligations.AccumulatorWriters : Prop :=
  ∀ s t : State, s.rst = false → step s = .next t → t.acc ≠ s.acc →
    ∃ v, fetched s = .insn (.add v) ∨ fetched s = .insn (.sub v) ∨ fetched s = .insn (.mul v) ∨
      fetched s = .insn (.div v) ∨ fetched s = .insn (.lda v) ∨ fetched s = .insn (.ldk v)

/-- 10_state.md section 2: INP, OUT, HLT and JMP do not read acc: with another value in it they do the same,
and that value stays. At an INP answered Invalid both runs take the same draw, because both start from the same
counter: that is the model's choice, log entry 7, and 43_io_halt.md R161 does not give it. -/
def Obligations.AccumulatorNotReadByIoHaltJmp : Prop :=
  ∀ (v x : Byte) (s t : State) (i : Instr), (i = .inp v ∨ i = .out v ∨ i = .hlt v ∨ i = .jmp v) →
    exec i s = .next t → exec i { s with acc := x } = .next { t with acc := x }

/-- 10_state.md section 5 and 90_conflicts.md C1: while the block runs, only STA and INP change a data cell, and
only the one at their operand. -/
def Obligations.DataWriters : Prop :=
  ∀ (s t : State) (b : Byte), s.rst = false → step s = .next t → memRead t b ≠ memRead s b →
    fetched s = .insn (.sta b) ∨ fetched s = .insn (.inp b)

/-- R59: no step changes the program store, and for a host's write of it while reset is released, of one slot or of
a whole image, the model has no step. The write allowed while `rst` is high is `HostLoadsUnderReset`. -/
def Obligations.ProgramStoreReadOnly : Prop :=
  (∀ s t : State, step s = .next t → t.prog = s.prog) ∧
    ∀ s t : State, s.rst = false →
      (∀ (slot : Byte) (w : Word), hostLoad slot w s ≠ .next t) ∧ ∀ ws : List Word, hostLoadImage ws s ≠ .next t

/-- 10_state.md section 3: a step leaves pc advanced, redirected to a jump's operand, or, where it halts, faults,
waits or is no step, unchanged. That waiting and no step are steps is log entries 3 and 6. -/
def Obligations.PcMovesThreeWays : Prop :=
  ∀ s t : State, s.rst = false → step s = .next t →
    IsNextSlot s.pc t.pc ∨
    (∃ i v, fetched s = .insn i ∧ operandOf i = v ∧ t.pc = v ∧ 0x0A ≤ (opcodeOf i).toNat) ∨
    (t.pc = s.pc ∧ (t.status.state ≠ .run ∨ (t.inpPending = true ∧ s.answers = [])))

/-- R31, R100: `state` changes only from RUN by a HLT or a fault, or to RUN by reset, and with reset released
nothing changes in HALTED and FAULTED. -/
def Obligations.StateChangesOnlyByHltFaultReset : Prop :=
  (∀ s t : State, step s = .next t → t.status.state ≠ s.status.state →
    (s.rst = true ∧ t.status.state = .run) ∨
    (Running s ∧ t.status.state = .halted ∧ ∃ k, fetched s = .insn (.hlt k)) ∨
    (Running s ∧ t.status.state = .faulted ∧ t.status.faultPc = s.pc)) ∧
  ∀ s t : State, s.rst = false → s.status.state ≠ .run → step s = .next t → t = s

/-- 60_exceptions.md section 4: HALTED and FAULTED are left only by reset: with `rst` low, no number of steps
changes anything. That no step is a step to the same state is log entry 3. -/
def Obligations.StoppedStaysStopped : Prop :=
  ∀ s : State, s.rst = false → s.status.state ≠ .run → ∀ k, core.run k s = .next s

/-- R201, R203: from RUN a step ends FAULTED exactly on an illegal word or a DIV with a zero divisor cell, with
that cause and the slot recorded and on the outputs, and nothing else changed, and no further step changes
anything; the codes are 0x01 and 0x02, and none above is produced. -/
def Obligations.FaultsExactlyAndPrecisely : Prop :=
  (∀ s t : State, Running s → step s = .next t →
    (t.status.state = .faulted ↔
      (∃ o, fetched s = .illegal o) ∨ ∃ a, fetched s = .insn (.div a) ∧ cellRead s.dmem a.toNat = 0x00) ∧
    (t.status.state = .faulted → ∃ c,
      t = { s with status := { s.status with state := .faulted, faultCause := c, faultPc := s.pc } } ∧
      (c = .illegalOpcode ↔ ∃ o, fetched s = .illegal o) ∧
      (c = .divByZero ↔ ∃ a, fetched s = .insn (.div a) ∧ cellRead s.dmem a.toNat = 0x00) ∧
      (ports t).faulted = true ∧ (ports t).faultCause = faultCauseCode c ∧ (ports t).faultPc = s.pc ∧
      ∀ u, step t = .next u → u = t)) ∧
  faultCauseCode .none = 0x00 ∧ faultCauseCode .divByZero = 0x01 ∧ faultCauseCode .illegalOpcode = 0x02 ∧
  ∀ c, (faultCauseCode c).toNat ≤ 0x02

/-- 60_exceptions.md section 1: nothing else stops the machine: every step, in every state, has a next state. That
faults, waiting and no step are next states is log entries 3, 4 and 6. -/
def Obligations.EveryStepHasNextState : Prop :=
  ∀ s : State, ∃ t, step s = .next t

/-- 20_memory.md section 6: the host receives exactly the event on `out_data` in each step, after the earlier
ones, and an answer is taken only by a requesting INP, the oldest first and one at a time. That events and answers
stand in lists is log entries 5 and 8. -/
def Obligations.HostEventsInOrder : Prop :=
  ∀ s t : State, step s = .next t →
    t.outs = s.outs ++ (portOut s).toList ∧
      (t.answers = s.answers ∨ (portInReq s = true ∧ ∃ x, s.answers = x :: t.answers))

/-- 10_state.md section 7: the OUT values received are no state of the block: no step reads them. That they stand in
a list of State is log entry 8. At an INP answered Invalid both steps take the same draw, because both start from the
same counter: that is the model's choice, log entry 7, and 43_io_halt.md R161 does not give it. -/
def Obligations.OutEventsNotRead : Prop :=
  ∀ (s t : State) (l : List Byte), step s = .next t →
    step { s with outs := l } = .next { t with outs := l ++ (portOut s).toList }

/-- 40_execution_cycle.md section 4: the draw is used only by an INP answered Invalid; every other step is the
same whichever draw would come next. The counter is the model's own (log entry 7). -/
def Obligations.DrawUsedOnlyByInvalidInp : Prop :=
  ∀ (s t : State) (d : Nat), step s = .next t →
    (∀ a rest, fetched s = .insn (.inp a) → s.answers ≠ .invalid :: rest) →
    t.draws = s.draws ∧ step { s with draws := d } = .next { t with draws := d }

/-- 70_reset_and_hazards.md section 3: no hazard. The cell a STA or an INP writes holds the new value for the next
instruction, a load and an OUT among them; each conditional jump compares the acc that the instruction just before
it wrote, be it LDK, LDA, ADD, SUB, MUL or DIV; and after a jump, taken or not, the word fetched next is that of
the slot it goes to. The list of answers is log entry 5, the draw of an Invalid one a free value, log entry 7. -/
def Obligations.NoHazards : Prop :=
  ∀ (s t : State) (a v m x : Byte) (rest : List Answer), m = cellRead s.dmem a.toNat →
    (exec (.sta a) s = .next t → LoadsAndEmits a s.acc t) ∧
    (s.answers = .value v :: rest → exec (.inp a) s = .next t → LoadsAndEmits a v t) ∧
    (s.answers = .invalid :: rest → exec (.inp a) s = .next t → LoadsAndEmits a (Config.inpDraw s.draws) t) ∧
    (exec (.ldk v) s = .next t → BranchesOn v t) ∧
    (exec (.lda a) s = .next t → BranchesOn m t) ∧
    (exec (.add a) s = .next t → (x.toNat : Int) = (s.acc.toInt + m.toInt) % 256 → BranchesOn x t) ∧
    (exec (.sub a) s = .next t → (x.toNat : Int) = (s.acc.toInt - m.toInt) % 256 → BranchesOn x t) ∧
    (exec (.mul a) s = .next t → (x.toNat : Int) = (s.acc.toInt * m.toInt) % 256 → BranchesOn x t) ∧
    (m ≠ 0x00 → exec (.div a) s = .next t → (x.toNat : Int) = (s.acc.toInt.tdiv m.toInt) % 256 → BranchesOn x t) ∧
    (exec (.jmp v) s = .next t → fetch t = cellRead s.prog v.toNat) ∧
    ((exec (.jez v) s = .next t ∨ exec (.jne v) s = .next t ∨ exec (.jlz v) s = .next t ∨
      exec (.jle v) s = .next t ∨ exec (.jgz v) s = .next t ∨ exec (.jge v) s = .next t) →
      fetch t = cellRead s.prog t.pc.toNat ∧ (t.pc = v ∨ IsNextSlot s.pc t.pc))

/-! ### Invariants -/

/-- The reset state meets the invariant. Its clauses on the status register and the request are 10_state.md sections
6 to 8; its clauses on the canonical form of the two memories (`data`, `prog`) are the model's choice, log entry 19. -/
def Obligations.InvAtReset : Prop := Inv State.reset

/-- Every step, from every state that meets the invariant, gives a state that meets it: a status register that
fits what stands at pc, a request only at a waiting INP, and both memories in canonical form. The last of these
(`data`, `prog`) is the model's choice, log entry 19; that waiting is a step is log entry 6. -/
def Obligations.InvKeptByStep : Prop :=
  ∀ s t : State, Inv s → step s = .next t → Inv t

/-- 00_scope.md R19, 40_execution_cycle.md R107, R110: however long a run from a state that meets the invariant,
if it has ended HALTED then pc is at a HLT whose operand is the halt code, and if FAULTED then pc is at an illegal
word or at a DIV whose divisor cell holds 0x00, as the recorded cause says. The events of the end are those
received, by the definition of `runEnd`; the invariant's clauses on canonical memories are log entry 19. -/
def Obligations.EndedRunStandsAtItsCause : Prop :=
  ∀ (k : Nat) (s t : State), Inv s → core.run k s = .next t →
    (∀ c os, runEnd t = some (.halted c os) → fetched t = .insn (.hlt c) ∧ t.outs = os) ∧
    (runEnd t = some (.faulted .illegalOpcode) → ∃ o, fetched t = .illegal o) ∧
    (runEnd t = some (.faulted .divByZero) → ∃ a, fetched t = .insn (.div a) ∧ memRead t a = 0x00) ∧
    runEnd t ≠ some (.faulted .none)

/-- 10_state.md section 7: where the invariant holds and reset is released, a pending request shows on `in_req`,
and the block is in RUN. Which clocks `in_req` is high in is log entry 10. -/
def Obligations.PendingRequestShowsOnInReq : Prop :=
  ∀ s : State, Inv s → s.rst = false → s.inpPending = true →
    (ports s).inReq = true ∧ (ports s).halted = false ∧ (ports s).faulted = false

/-! ### The host's interface -/

/-- 10_state.md section 9, 60_exceptions.md section 7: in a clock with `rst` low, whatever its level before, in which
the running block is at an INP that has no answer yet, `in_valid` alone completes the INP with the value on `in_data`,
and `in_invalid` alone with the next draw (a free value, log entry 7); no other cell changes. Both pins at once,
either while `in_req` is low, and either as a second answer are refused (log entry 11); a clock with neither is a step.
That `rst` and the answers stand in State, and in which clocks `in_req` is high, are log entries 9, 5 and 10. -/
def Obligations.HostAnswersOnPins : Prop :=
  ∀ (s : State) (d a p : Byte), IsNextSlot s.pc p →
    (s.status.state = .run → fetched s = .insn (.inp a) → s.answers = [] →
      (∃ m, clock { rst := false, inValid := true, inInvalid := false, inData := d } s =
          .next { s with rst := false, dmem := m, pc := p, inpPending := false } ∧
        cellRead m a.toNat = d ∧ ∀ n, n ≠ a.toNat → cellRead m n = cellRead s.dmem n) ∧
      (∃ m, clock { rst := false, inValid := false, inInvalid := true, inData := d } s =
          .next { s with rst := false, dmem := m, pc := p, inpPending := false, draws := s.draws + 1 } ∧
        cellRead m a.toNat = Config.inpDraw s.draws ∧ ∀ n, n ≠ a.toNat → cellRead m n = cellRead s.dmem n)) ∧
    clock { rst := false, inValid := true, inInvalid := true, inData := d } s = .refused .hostOutsideInterface ∧
    (portInReq { s with rst := false } = false ∨ s.answers ≠ [] →
      clock { rst := false, inValid := true, inInvalid := false, inData := d } s = .refused .hostOutsideInterface ∧
      clock { rst := false, inValid := false, inInvalid := true, inData := d } s = .refused .hostOutsideInterface) ∧
    clock { rst := false, inValid := false, inInvalid := false, inData := d } s = step { s with rst := false }

/-- 70_reset_and_hazards.md section 1, 60_exceptions.md sections 2 and 7, 40_execution_cycle.md sections 1 and 2: the
level of the pin `rst` in a clock decides, whatever it was before. High, from any state, the clock leaves the reset values and the program store, there is no
step for an answer (log entry 11), and the next clock with the pin low runs the instruction of slot 0. Low, the clock
runs the instruction of slot pc in RUN, faults on an illegal word, and changes nothing in HALTED and FAULTED but the
level. That a clock in HALTED or FAULTED, where the block takes no step, has a next state is log entry 3, and that a
fault is one is log entry 4; that the level stands in State is log entry 9; that the host's lists and the draws
outlast a reset is log entries 5, 7 and 8. -/
def Obligations.ClockFollowsResetPin : Prop :=
  ∀ (s : State) (d e : Byte),
    (∃ t, clock { rst := true, inValid := false, inInvalid := false, inData := d } s = .next t ∧ t.rst = true ∧
      t.acc = 0x00 ∧ t.pc = 0x00 ∧ (∀ n, cellRead t.dmem n = 0x00) ∧
      t.status = { state := .run, haltCode := 0x00, faultCause := .none, faultPc := 0x00 } ∧
      t.inpPending = false ∧ portInReq t = false ∧ portOut t = none ∧ t.prog = s.prog ∧
      t.answers = s.answers ∧ t.outs = s.outs ∧ t.draws = s.draws ∧
      ∀ i, decode (cellRead s.prog 0) = .insn i →
        clock { rst := false, inValid := false, inInvalid := false, inData := e } t = exec i { t with rst := false }) ∧
    (∀ v i u, v = true ∨ i = true → clock { rst := true, inValid := v, inInvalid := i, inData := d } s ≠ .next u) ∧
    (s.status.state = .run →
      (∀ i, decode (cellRead s.prog s.pc.toNat) = .insn i →
        clock { rst := false, inValid := false, inInvalid := false, inData := d } s = exec i { s with rst := false }) ∧
      (0x11 ≤ (cellRead s.prog s.pc.toNat).toNat / 256 →
        clock { rst := false, inValid := false, inInvalid := false, inData := d } s = .next { s with
          rst := false
          status := { s.status with state := .faulted, faultCause := .illegalOpcode, faultPc := s.pc } })) ∧
    (s.status.state ≠ .run →
      clock { rst := false, inValid := false, inInvalid := false, inData := d } s = .next { s with rst := false })

/-- R233: a clock with `rst` high abandons a waiting INP: the request falls, no cell is written, the block starts
again from slot 0, and for an answer given then, on either pin or both, the model has no step (log entry 11). -/
def Obligations.ResetAbandonsWaitingInp : Prop :=
  ∀ (s : State) (d : Byte), s.inpPending = true →
    ∃ t, clock { rst := true, inValid := false, inInvalid := false, inData := d } s = .next t ∧
      t.inpPending = false ∧ portInReq t = false ∧ t.pc = 0x00 ∧ (∀ n, cellRead t.dmem n = 0x00) ∧
      fetch { t with rst := false } = cellRead s.prog 0 ∧
      ∀ v i u, v = true ∨ i = true → clock { rst := true, inValid := v, inInvalid := i, inData := d } t ≠ .next u

/-- 60_exceptions.md section 7, 10_state.md section 4: while `rst` is high the host's load puts the word in its
slot and changes nothing else, and its load of an image of at most 256 words gives a store whose slots hold the
image's words from slot 0 on and the zero word above them; for a longer image the model has no step (log entry 11). -/
def Obligations.HostLoadsUnderReset : Prop :=
  ∀ s : State, s.rst = true →
    (∀ (slot : Byte) (w : Word), ∃ q, hostLoad slot w s = .next { s with prog := q } ∧ cellRead q slot.toNat = w ∧
      ∀ n, n ≠ slot.toNat → cellRead q n = cellRead s.prog n) ∧
    ∀ ws : List Word,
      (ws.length ≤ 256 → ∃ q, hostLoadImage ws s = .next { s with prog := q } ∧
        (∀ n w, ws[n]? = some w → cellRead q n = w) ∧ ∀ n, ws.length ≤ n → cellRead q n = 0x0000) ∧
      (256 < ws.length → ∀ t, hostLoadImage ws s ≠ .next t)

/-- 60_exceptions.md section 7, 43_io_halt.md section 3: the host's exit status is the halt code where it is 0 to
127, 1 for a fault, and none while the block runs. The other codes are free (log entry 12). -/
def Obligations.ExitStatusByEnd : Prop :=
  ∀ s : State, (s.status.state = .run → exitStatus s = none) ∧ (s.status.state = .faulted → exitStatus s = some 1) ∧
    (s.status.state = .halted → s.status.haltCode.toNat ≤ 127 → exitStatus s = some s.status.haltCode.toNat)

/-! ### The assembler -/

/-- R89: once 256 instructions are stored assembly stops without error, so that further lines, whatever they
hold, change nothing. -/
def Obligations.AssemblerStopsAtCap : Prop :=
  ∀ (lines more : List (List Char)) (is : List Instr), assembleLines 256 lines = .program is →
    is.length ≤ 256 ∧ (is.length = 256 → assembleLines 256 (lines ++ more) = .program is)

/-- 30_encoding.md section 5: a program of at most 256 instructions fills the slots from 0 on with their words,
every other slot holds the zero word, and no slot holds an illegal word. That the image is in canonical form
(`ProgramStore.wf`) is the model's choice, log entry 19. -/
def Obligations.ProgramImageSlots : Prop :=
  ∀ is : List Instr, is.length ≤ 256 →
    (∀ n i, is[n]? = some i → cellRead (programImage is) n = encode i) ∧
    (∀ n, is.length ≤ n → cellRead (programImage is) n = 0x0000) ∧
    (∀ n, legalWord (cellRead (programImage is) n) = true) ∧ ProgramStore.wf (programImage is) = true

/-- 30_encoding.md section 5: a literal in the 32-bit range gives its low 8 bits, a greater one its low 8 bits or
what `asm_literal_overflow` gives for the literal's text, and a token the parse consumes nothing of is fatal. The
literal is a prefix of its token, and the characters after it change nothing. That every 32-bit value fits the
parser's type is PRESUMED, and `asm_literal_overflow` is a free value (log entry 13). -/
def Obligations.OperandLiteralTruncates : Prop :=
  ∀ token : List Char,
    literalText token <+: token ∧ operandOfToken token = operandOfToken (literalText token) ∧
    (parseLiteral token = none → operandOfToken token = .error .invalidOperand) ∧
    ∀ n : Int, parseLiteral token = some n →
      (∃ v : Byte, operandOfToken token = .ok v ∧ (v.toNat : Int) = n % 256) ∨
      ((n < -2147483648 ∨ 2147483647 < n) ∧ operandOfToken token =
        match Config.asmLiteralOverflow (literalText token) with
        | some v => .ok v
        | none => .error .literalOverflow)
end

