-- ==== Sys2Proof/Laws/Assembler.lean ====
section
/-!
SUPPORT. Laws/Assembler.lean: what reading a literal can give. The text read is a prefix of the token, and
reading it alone gives the same, so that nothing after a literal matters (30_encoding.md R87).
-/

namespace Sys2Proof.Machine

variable {α : Type} {cs : List Char} {base : Nat}

/-- The reader `read` gives a nonempty prefix of what it is given, and gives the same when given that alone. -/
def ReadsPrefix (read : List Char → Option (List Char × α)) : Prop :=
  ∀ cs p, read cs = some p → p.1 ≠ [] ∧ p.1 <+: cs ∧ read p.1 = some p

/-- Taking from what was taken takes it all. -/
theorem takeWhile_takeWhile_self (f : Char → Bool) (cs : List Char) :
    (cs.takeWhile f).takeWhile f = cs.takeWhile f := by
  induction cs with
  | nil => rfl
  | cons c rest ih => cases h : f c <;> simp [h, ih]

/-- A nonempty prefix of a list begins as the list does. -/
theorem prefix_cons_of_ne_nil {ds rest : List Char} {c : Char} (hne : ds ≠ []) (h : ds <+: c :: rest) :
    ∃ tail, ds = c :: tail := by
  cases ds with
  | nil => exact absurd rfl hne
  | cons d tail => exact ⟨tail, by rw [(List.cons_prefix_cons.1 h).1]⟩

theorem readDigits_readsPrefix (base : Nat) : ReadsPrefix (readDigits base) := by
  intro cs p h
  simp only [readDigits] at h
  split at h
  · cases h
  · next hne =>
    cases h
    refine ⟨by simpa using hne, List.takeWhile_prefix _, ?_⟩
    simp only [readDigits, takeWhile_takeWhile_self, if_neg hne]

theorem readHex_readsPrefix : ReadsPrefix readHex := by
  intro cs p h
  cases cs with
  | nil => cases h
  | cons c rest =>
    simp only [readHex] at h
    split at h
    · next hx =>
      obtain ⟨q, hq, rfl⟩ := Option.map_eq_some_iff.1 h
      obtain ⟨-, hp, ht⟩ := readDigits_readsPrefix 16 rest q hq
      exact ⟨by simp, List.cons_prefix_cons.2 ⟨rfl, hp⟩, by simp [readHex, hx, ht]⟩
    · cases h

/-- No `x` is an octal digit. -/
theorem readHex_octal (cs : List Char) : readHex (cs.takeWhile fun c => (digitOf 8 c).isSome) = none := by
  cases cs with
  | nil => rfl
  | cons c rest =>
    rw [List.takeWhile_cons]
    split
    · next ho =>
      have hx : ¬(c == 'x' || c == 'X') = true := by
        rw [Bool.or_eq_true, beq_iff_eq, beq_iff_eq]
        rintro (rfl | rfl) <;> exact absurd ho (by decide)
      rw [readHex, if_neg hx]
    · rfl

theorem readMagnitude_readsPrefix : ReadsPrefix readMagnitude := by
  intro cs p h
  cases cs with
  | nil => cases h
  | cons c rest =>
    simp only [readMagnitude] at h
    split at h
    · next hc =>
      split at h
      · next q hq =>
        cases h
        obtain ⟨-, hp, ht⟩ := readHex_readsPrefix rest q hq
        exact ⟨by simp, List.cons_prefix_cons.2 ⟨rfl, hp⟩, by simp [readMagnitude, hc, ht]⟩
      · obtain ⟨hne, hp, ht⟩ := readDigits_readsPrefix 8 _ p h
        have hd : (digitOf 8 c).isSome = true := by rw [eq_of_beq hc]; decide
        have htext : p.1 = c :: rest.takeWhile fun d => (digitOf 8 d).isSome := by
          simp only [readDigits, List.takeWhile_cons, hd, if_true] at h
          cases h
          rfl
        refine ⟨hne, hp, ?_⟩
        rw [htext] at ht ⊢
        simp only [readMagnitude, hc, if_true, readHex_octal, ht]
    · next hc =>
      obtain ⟨hne, hp, ht⟩ := readDigits_readsPrefix 10 _ p h
      obtain ⟨tail, htext⟩ := prefix_cons_of_ne_nil hne hp
      refine ⟨hne, hp, ?_⟩
      rw [htext] at ht ⊢
      simp only [readMagnitude, hc, ht]
      rfl

theorem readLiteral_readsPrefix : ReadsPrefix readLiteral := by
  intro cs p h
  cases cs with
  | nil => cases h
  | cons c rest =>
    simp only [readLiteral] at h
    split at h
    · next hc =>
      obtain ⟨q, hq, rfl⟩ := Option.map_eq_some_iff.1 h
      obtain ⟨-, hp, ht⟩ := readMagnitude_readsPrefix rest q hq
      exact ⟨by simp, List.cons_prefix_cons.2 ⟨rfl, hp⟩, by simp [readLiteral, hc, ht]⟩
    · next hc =>
      split at h
      · next hd =>
        obtain ⟨q, hq, rfl⟩ := Option.map_eq_some_iff.1 h
        obtain ⟨-, hp, ht⟩ := readMagnitude_readsPrefix rest q hq
        exact ⟨by simp, List.cons_prefix_cons.2 ⟨rfl, hp⟩, by simp [readLiteral, hc, hd, ht]⟩
      · next hd =>
        obtain ⟨q, hq, rfl⟩ := Option.map_eq_some_iff.1 h
        obtain ⟨hne, hp, ht⟩ := readMagnitude_readsPrefix _ q hq
        obtain ⟨tail, htext⟩ := prefix_cons_of_ne_nil hne hp
        refine ⟨hne, hp, ?_⟩
        simp only
        rw [htext] at ht ⊢
        simp [readLiteral, hc, hd, ht, htext]

/-- The literal is a prefix of its token, and reading it alone gives what reading the token gives. -/
theorem literalText_prefix_reads (token : List Char) :
    literalText token <+: token ∧ readLiteral (literalText token) = readLiteral token := by
  unfold literalText
  cases h : readLiteral token with
  | none => exact ⟨List.nil_prefix, rfl⟩
  | some p => exact (readLiteral_readsPrefix token p h).2

end Sys2Proof.Machine
end

