-- ==== Sys2Proof/Laws/State.lean ====
section
/-!
SUPPORT. Laws/State.lean: what each named update does to each field of State, one lemma a field, true by rfl.
-/

namespace Sys2Proof.Machine

/-! ### setAcc -/

@[simp] theorem setAcc_acc (s : State) (v : Byte) : (setAcc s v).acc = v := rfl
@[simp] theorem setAcc_pc (s : State) (v : Byte) : (setAcc s v).pc = s.pc := rfl
@[simp] theorem setAcc_dmem (s : State) (v : Byte) : (setAcc s v).dmem = s.dmem := rfl
@[simp] theorem setAcc_prog (s : State) (v : Byte) : (setAcc s v).prog = s.prog := rfl
@[simp] theorem setAcc_status (s : State) (v : Byte) : (setAcc s v).status = s.status := rfl
@[simp] theorem setAcc_inpPending (s : State) (v : Byte) : (setAcc s v).inpPending = s.inpPending := rfl
@[simp] theorem setAcc_rst (s : State) (v : Byte) : (setAcc s v).rst = s.rst := rfl
@[simp] theorem setAcc_answers (s : State) (v : Byte) : (setAcc s v).answers = s.answers := rfl
@[simp] theorem setAcc_outs (s : State) (v : Byte) : (setAcc s v).outs = s.outs := rfl
@[simp] theorem setAcc_draws (s : State) (v : Byte) : (setAcc s v).draws = s.draws := rfl

/-! ### advance -/

@[simp] theorem advance_acc (s : State) : (advance s).acc = s.acc := rfl
@[simp] theorem advance_pc (s : State) : (advance s).pc = trunc8 ((uval s.pc : Int) + 1) := rfl
@[simp] theorem advance_dmem (s : State) : (advance s).dmem = s.dmem := rfl
@[simp] theorem advance_prog (s : State) : (advance s).prog = s.prog := rfl
@[simp] theorem advance_status (s : State) : (advance s).status = s.status := rfl
@[simp] theorem advance_inpPending (s : State) : (advance s).inpPending = s.inpPending := rfl
@[simp] theorem advance_rst (s : State) : (advance s).rst = s.rst := rfl
@[simp] theorem advance_answers (s : State) : (advance s).answers = s.answers := rfl
@[simp] theorem advance_outs (s : State) : (advance s).outs = s.outs := rfl
@[simp] theorem advance_draws (s : State) : (advance s).draws = s.draws := rfl

/-! ### redirect -/

@[simp] theorem redirect_acc (s : State) (t : Byte) : (redirect s t).acc = s.acc := rfl
@[simp] theorem redirect_pc (s : State) (t : Byte) : (redirect s t).pc = t := rfl
@[simp] theorem redirect_dmem (s : State) (t : Byte) : (redirect s t).dmem = s.dmem := rfl
@[simp] theorem redirect_prog (s : State) (t : Byte) : (redirect s t).prog = s.prog := rfl
@[simp] theorem redirect_status (s : State) (t : Byte) : (redirect s t).status = s.status := rfl
@[simp] theorem redirect_inpPending (s : State) (t : Byte) : (redirect s t).inpPending = s.inpPending := rfl
@[simp] theorem redirect_rst (s : State) (t : Byte) : (redirect s t).rst = s.rst := rfl
@[simp] theorem redirect_answers (s : State) (t : Byte) : (redirect s t).answers = s.answers := rfl
@[simp] theorem redirect_outs (s : State) (t : Byte) : (redirect s t).outs = s.outs := rfl
@[simp] theorem redirect_draws (s : State) (t : Byte) : (redirect s t).draws = s.draws := rfl

/-! ### memWrite -/

@[simp] theorem memWrite_acc (s : State) (a v : Byte) : (memWrite s a v).acc = s.acc := rfl
@[simp] theorem memWrite_pc (s : State) (a v : Byte) : (memWrite s a v).pc = s.pc := rfl
@[simp] theorem memWrite_dmem (s : State) (a v : Byte) : (memWrite s a v).dmem = cellWrite s.dmem (addrOf a) v := rfl
@[simp] theorem memWrite_prog (s : State) (a v : Byte) : (memWrite s a v).prog = s.prog := rfl
@[simp] theorem memWrite_status (s : State) (a v : Byte) : (memWrite s a v).status = s.status := rfl
@[simp] theorem memWrite_inpPending (s : State) (a v : Byte) : (memWrite s a v).inpPending = s.inpPending := rfl
@[simp] theorem memWrite_rst (s : State) (a v : Byte) : (memWrite s a v).rst = s.rst := rfl
@[simp] theorem memWrite_answers (s : State) (a v : Byte) : (memWrite s a v).answers = s.answers := rfl
@[simp] theorem memWrite_outs (s : State) (a v : Byte) : (memWrite s a v).outs = s.outs := rfl
@[simp] theorem memWrite_draws (s : State) (a v : Byte) : (memWrite s a v).draws = s.draws := rfl

/-! ### storeSlot -/

@[simp] theorem storeSlot_acc (s : State) (slot : Byte) (w : Word) : (storeSlot s slot w).acc = s.acc := rfl
@[simp] theorem storeSlot_pc (s : State) (slot : Byte) (w : Word) : (storeSlot s slot w).pc = s.pc := rfl
@[simp] theorem storeSlot_dmem (s : State) (slot : Byte) (w : Word) : (storeSlot s slot w).dmem = s.dmem := rfl
@[simp] theorem storeSlot_prog (s : State) (slot : Byte) (w : Word) :
    (storeSlot s slot w).prog =
      cellWrite s.prog (uval slot) w := rfl
@[simp] theorem storeSlot_status (s : State) (slot : Byte) (w : Word) : (storeSlot s slot w).status = s.status := rfl
@[simp] theorem storeSlot_inpPending (s : State) (slot : Byte) (w : Word) :
    (storeSlot s slot w).inpPending =
      s.inpPending := rfl
@[simp] theorem storeSlot_rst (s : State) (slot : Byte) (w : Word) : (storeSlot s slot w).rst = s.rst := rfl
@[simp] theorem storeSlot_answers (s : State) (slot : Byte) (w : Word) :
    (storeSlot s slot w).answers =
      s.answers := rfl
@[simp] theorem storeSlot_outs (s : State) (slot : Byte) (w : Word) : (storeSlot s slot w).outs = s.outs := rfl
@[simp] theorem storeSlot_draws (s : State) (slot : Byte) (w : Word) : (storeSlot s slot w).draws = s.draws := rfl

/-! ### raiseFault -/

@[simp] theorem raiseFault_acc (s : State) (c : FaultCause) : (raiseFault s c).acc = s.acc := rfl
@[simp] theorem raiseFault_pc (s : State) (c : FaultCause) : (raiseFault s c).pc = s.pc := rfl
@[simp] theorem raiseFault_dmem (s : State) (c : FaultCause) : (raiseFault s c).dmem = s.dmem := rfl
@[simp] theorem raiseFault_prog (s : State) (c : FaultCause) : (raiseFault s c).prog = s.prog := rfl
@[simp] theorem raiseFault_status (s : State) (c : FaultCause) :
    (raiseFault s c).status =
      { s.status with state := .faulted, faultCause := c, faultPc := s.pc } := rfl
@[simp] theorem raiseFault_inpPending (s : State) (c : FaultCause) : (raiseFault s c).inpPending = s.inpPending := rfl
@[simp] theorem raiseFault_rst (s : State) (c : FaultCause) : (raiseFault s c).rst = s.rst := rfl
@[simp] theorem raiseFault_answers (s : State) (c : FaultCause) : (raiseFault s c).answers = s.answers := rfl
@[simp] theorem raiseFault_outs (s : State) (c : FaultCause) : (raiseFault s c).outs = s.outs := rfl
@[simp] theorem raiseFault_draws (s : State) (c : FaultCause) : (raiseFault s c).draws = s.draws := rfl

/-! ### haltWith -/

@[simp] theorem haltWith_acc (s : State) (k : Byte) : (haltWith s k).acc = s.acc := rfl
@[simp] theorem haltWith_pc (s : State) (k : Byte) : (haltWith s k).pc = s.pc := rfl
@[simp] theorem haltWith_dmem (s : State) (k : Byte) : (haltWith s k).dmem = s.dmem := rfl
@[simp] theorem haltWith_prog (s : State) (k : Byte) : (haltWith s k).prog = s.prog := rfl
@[simp] theorem haltWith_status (s : State) (k : Byte) :
    (haltWith s k).status =
      { s.status with state := .halted, haltCode := k } := rfl
@[simp] theorem haltWith_inpPending (s : State) (k : Byte) : (haltWith s k).inpPending = s.inpPending := rfl
@[simp] theorem haltWith_rst (s : State) (k : Byte) : (haltWith s k).rst = s.rst := rfl
@[simp] theorem haltWith_answers (s : State) (k : Byte) : (haltWith s k).answers = s.answers := rfl
@[simp] theorem haltWith_outs (s : State) (k : Byte) : (haltWith s k).outs = s.outs := rfl
@[simp] theorem haltWith_draws (s : State) (k : Byte) : (haltWith s k).draws = s.draws := rfl

/-! ### emitOut -/

@[simp] theorem emitOut_acc (s : State) (v : Byte) : (emitOut s v).acc = s.acc := rfl
@[simp] theorem emitOut_pc (s : State) (v : Byte) : (emitOut s v).pc = s.pc := rfl
@[simp] theorem emitOut_dmem (s : State) (v : Byte) : (emitOut s v).dmem = s.dmem := rfl
@[simp] theorem emitOut_prog (s : State) (v : Byte) : (emitOut s v).prog = s.prog := rfl
@[simp] theorem emitOut_status (s : State) (v : Byte) : (emitOut s v).status = s.status := rfl
@[simp] theorem emitOut_inpPending (s : State) (v : Byte) : (emitOut s v).inpPending = s.inpPending := rfl
@[simp] theorem emitOut_rst (s : State) (v : Byte) : (emitOut s v).rst = s.rst := rfl
@[simp] theorem emitOut_answers (s : State) (v : Byte) : (emitOut s v).answers = s.answers := rfl
@[simp] theorem emitOut_outs (s : State) (v : Byte) : (emitOut s v).outs = s.outs ++ [v] := rfl
@[simp] theorem emitOut_draws (s : State) (v : Byte) : (emitOut s v).draws = s.draws := rfl

/-! ### waitForAnswer -/

@[simp] theorem waitForAnswer_acc (s : State) : (waitForAnswer s).acc = s.acc := rfl
@[simp] theorem waitForAnswer_pc (s : State) : (waitForAnswer s).pc = s.pc := rfl
@[simp] theorem waitForAnswer_dmem (s : State) : (waitForAnswer s).dmem = s.dmem := rfl
@[simp] theorem waitForAnswer_prog (s : State) : (waitForAnswer s).prog = s.prog := rfl
@[simp] theorem waitForAnswer_status (s : State) : (waitForAnswer s).status = s.status := rfl
@[simp] theorem waitForAnswer_inpPending (s : State) : (waitForAnswer s).inpPending = true := rfl
@[simp] theorem waitForAnswer_rst (s : State) : (waitForAnswer s).rst = s.rst := rfl
@[simp] theorem waitForAnswer_answers (s : State) : (waitForAnswer s).answers = s.answers := rfl
@[simp] theorem waitForAnswer_outs (s : State) : (waitForAnswer s).outs = s.outs := rfl
@[simp] theorem waitForAnswer_draws (s : State) : (waitForAnswer s).draws = s.draws := rfl

/-! ### takeAnswer -/

@[simp] theorem takeAnswer_acc (s : State) (rest : List Answer) : (takeAnswer s rest).acc = s.acc := rfl
@[simp] theorem takeAnswer_pc (s : State) (rest : List Answer) : (takeAnswer s rest).pc = s.pc := rfl
@[simp] theorem takeAnswer_dmem (s : State) (rest : List Answer) : (takeAnswer s rest).dmem = s.dmem := rfl
@[simp] theorem takeAnswer_prog (s : State) (rest : List Answer) : (takeAnswer s rest).prog = s.prog := rfl
@[simp] theorem takeAnswer_status (s : State) (rest : List Answer) : (takeAnswer s rest).status = s.status := rfl
@[simp] theorem takeAnswer_inpPending (s : State) (rest : List Answer) : (takeAnswer s rest).inpPending = false := rfl
@[simp] theorem takeAnswer_rst (s : State) (rest : List Answer) : (takeAnswer s rest).rst = s.rst := rfl
@[simp] theorem takeAnswer_answers (s : State) (rest : List Answer) : (takeAnswer s rest).answers = rest := rfl
@[simp] theorem takeAnswer_outs (s : State) (rest : List Answer) : (takeAnswer s rest).outs = s.outs := rfl
@[simp] theorem takeAnswer_draws (s : State) (rest : List Answer) : (takeAnswer s rest).draws = s.draws := rfl

/-! ### useDraw -/

@[simp] theorem useDraw_acc (s : State) : (useDraw s).acc = s.acc := rfl
@[simp] theorem useDraw_pc (s : State) : (useDraw s).pc = s.pc := rfl
@[simp] theorem useDraw_dmem (s : State) : (useDraw s).dmem = s.dmem := rfl
@[simp] theorem useDraw_prog (s : State) : (useDraw s).prog = s.prog := rfl
@[simp] theorem useDraw_status (s : State) : (useDraw s).status = s.status := rfl
@[simp] theorem useDraw_inpPending (s : State) : (useDraw s).inpPending = s.inpPending := rfl
@[simp] theorem useDraw_rst (s : State) : (useDraw s).rst = s.rst := rfl
@[simp] theorem useDraw_answers (s : State) : (useDraw s).answers = s.answers := rfl
@[simp] theorem useDraw_outs (s : State) : (useDraw s).outs = s.outs := rfl
@[simp] theorem useDraw_draws (s : State) : (useDraw s).draws = s.draws + 1 := rfl

/-! ### holdReset -/

@[simp] theorem holdReset_acc (s : State) : (holdReset s).acc = 0x00 := rfl
@[simp] theorem holdReset_pc (s : State) : (holdReset s).pc = 0x00 := rfl
@[simp] theorem holdReset_dmem (s : State) : (holdReset s).dmem = [] := rfl
@[simp] theorem holdReset_prog (s : State) : (holdReset s).prog = s.prog := rfl
@[simp] theorem holdReset_status (s : State) : (holdReset s).status = Status.reset := rfl
@[simp] theorem holdReset_inpPending (s : State) : (holdReset s).inpPending = false := rfl
@[simp] theorem holdReset_rst (s : State) : (holdReset s).rst = s.rst := rfl
@[simp] theorem holdReset_answers (s : State) : (holdReset s).answers = s.answers := rfl
@[simp] theorem holdReset_outs (s : State) : (holdReset s).outs = s.outs := rfl
@[simp] theorem holdReset_draws (s : State) : (holdReset s).draws = s.draws := rfl

/-! ### The two operations that name another -/

@[simp] theorem noStep_eq (s : State) : noStep s = s := rfl

@[simp] theorem illegalWord_eq (s : State) : illegalWord s = raiseFault s .illegalOpcode := rfl

end Sys2Proof.Machine
end

