-- ==== Sys2Proof/Laws/Cells.lean ====
section
/-!
SUPPORT. Laws/Cells.lean: a store of cells is a function from indices to contents, written one cell at a
time, and every operation keeps its canonical form (20_memory.md R53, R55).
-/

namespace Sys2Proof.Machine

variable {n : Nat}

/-! ### Reading -/

@[simp] theorem cellRead_nil (a : Nat) : cellRead ([] : List (Nat × BitVec n)) a = unlisted n := rfl

theorem cellRead_cons (c : Nat × BitVec n) (m : List (Nat × BitVec n)) (a : Nat) :
    cellRead (c :: m) a = if c.1 = a then c.2 else cellRead m a := rfl

theorem cellRead_erase_same (m : List (Nat × BitVec n)) (a : Nat) : cellRead (cellErase m a) a = unlisted n := by
  induction m with
  | nil => rfl
  | cons c m ih =>
    by_cases h : c.1 = a
    · simpa [cellErase, h] using ih
    · simpa [cellErase, h, cellRead_cons] using ih

theorem cellRead_erase_other (m : List (Nat × BitVec n)) {a b : Nat} (hb : b ≠ a) :
    cellRead (cellErase m a) b = cellRead m b := by
  induction m with
  | nil => rfl
  | cons c m ih =>
    by_cases h : c.1 = a
    · have hc : c.1 ≠ b := fun e => hb (e.symm.trans h)
      rw [cellRead_cons, if_neg hc, ← ih]
      simp [cellErase, h]
    · have : cellErase (c :: m) a = c :: cellErase m a := by simp [cellErase, h]
      rw [this, cellRead_cons, cellRead_cons, ih]

theorem cellRead_insert_same (m : List (Nat × BitVec n)) (a : Nat) (v : BitVec n) (hm : ∀ c ∈ m, c.1 ≠ a) :
    cellRead (cellInsert m a v) a = v := by
  induction m with
  | nil => simp [cellInsert, cellRead_cons]
  | cons c m ih =>
    have hc : c.1 ≠ a := hm c (by simp)
    by_cases h : a < c.1
    · simp [cellInsert, h, cellRead_cons]
    · simp [cellInsert, h, cellRead_cons, hc, ih fun d hd => hm d (by simp [hd])]

theorem cellRead_insert_other (m : List (Nat × BitVec n)) {a b : Nat} (v : BitVec n) (hb : b ≠ a) :
    cellRead (cellInsert m a v) b = cellRead m b := by
  induction m with
  | nil => simp [cellInsert, cellRead_cons, Ne.symm hb]
  | cons c m ih =>
    by_cases h : a < c.1
    · simp [cellInsert, h, cellRead_cons, Ne.symm hb]
    · simp [cellInsert, h, cellRead_cons, ih]

theorem cellErase_no_entry (m : List (Nat × BitVec n)) (a : Nat) : ∀ c ∈ cellErase m a, c.1 ≠ a := by
  intro c hc
  simpa using (List.mem_filter.mp hc).2

/-- Reading back the cell just written. -/
@[simp] theorem cellRead_write_same (m : List (Nat × BitVec n)) (a : Nat) (v : BitVec n) :
    cellRead (cellWrite m a v) a = v := by
  unfold cellWrite
  split
  · next h => rw [cellRead_erase_same, h]
  · exact cellRead_insert_same _ _ _ (cellErase_no_entry m a)

/-- Writing a cell changes only that cell. -/
theorem cellRead_write_other (m : List (Nat × BitVec n)) {a b : Nat} (v : BitVec n) (hb : b ≠ a) :
    cellRead (cellWrite m a v) b = cellRead m b := by
  unfold cellWrite
  split
  · exact cellRead_erase_other m hb
  · rw [cellRead_insert_other _ _ hb, cellRead_erase_other m hb]

/-! ### The canonical form -/

theorem cellsWf_iff (m : List (Nat × BitVec n)) :
    cellsWf m = true ↔ m.Pairwise (fun c d => c.1 < d.1) ∧ ∀ c ∈ m, c.1 < 256 ∧ c.2 ≠ unlisted n := by
  simp [cellsWf]

@[simp] theorem cellsWf_nil : cellsWf ([] : List (Nat × BitVec n)) = true := by simp [cellsWf]

theorem cellErase_wf {m : List (Nat × BitVec n)} (h : cellsWf m = true) (a : Nat) :
    cellsWf (cellErase m a) = true := by
  rw [cellsWf_iff] at h ⊢
  exact ⟨h.1.filter _, fun c hc => h.2 c (List.mem_filter.mp hc).1⟩

theorem mem_cellInsert {m : List (Nat × BitVec n)} {a : Nat} {v : BitVec n} {d : Nat × BitVec n}
    (hd : d ∈ cellInsert m a v) : d = (a, v) ∨ d ∈ m := by
  induction m with
  | nil => simpa [cellInsert] using hd
  | cons c m ih =>
    unfold cellInsert at hd
    split at hd
    · simpa using hd
    · rcases List.mem_cons.mp hd with rfl | hd
      · simp
      · rcases ih hd with h | h
        · exact .inl h
        · simp [h]

theorem cellInsert_pairwise {m : List (Nat × BitVec n)} (h : m.Pairwise (fun c d => c.1 < d.1)) (a : Nat)
    (v : BitVec n) (hm : ∀ c ∈ m, c.1 ≠ a) : (cellInsert m a v).Pairwise (fun c d => c.1 < d.1) := by
  induction m with
  | nil => simp [cellInsert]
  | cons c m ih =>
    have hp := List.pairwise_cons.mp h
    unfold cellInsert
    split
    · next hlt =>
      refine List.pairwise_cons.mpr ⟨fun d hd => ?_, h⟩
      rcases List.mem_cons.mp hd with rfl | hd
      · exact hlt
      · exact Nat.lt_trans hlt (hp.1 d hd)
    · next hge =>
      have hne : c.1 ≠ a := hm c (by simp)
      refine List.pairwise_cons.mpr ⟨fun d hd => ?_, ih hp.2 fun d hd => hm d (by simp [hd])⟩
      rcases mem_cellInsert hd with rfl | hd
      · have : ¬ a < c.1 := hge
        show c.1 < a
        omega
      · exact hp.1 d hd

/-- Every write keeps the canonical form. -/
theorem cellWrite_wf {m : List (Nat × BitVec n)} (h : cellsWf m = true) {a : Nat} (ha : a < 256) (v : BitVec n) :
    cellsWf (cellWrite m a v) = true := by
  have he := cellErase_wf h a
  unfold cellWrite
  split
  · exact he
  · next hv =>
    rw [cellsWf_iff] at he ⊢
    refine ⟨cellInsert_pairwise he.1 a v (cellErase_no_entry m a), fun c hc => ?_⟩
    rcases mem_cellInsert hc with rfl | hc
    · exact ⟨ha, hv⟩
    · exact he.2 c hc

/-! ### Data memory and program store -/

@[simp] theorem uval_lt (v : Byte) : uval v < 256 := v.isLt

@[simp] theorem addrOf_lt (v : Byte) : addrOf v < 256 := v.isLt

theorem uval_inj {a b : Byte} : uval a = uval b ↔ a = b := BitVec.toNat_inj

@[simp] theorem memRead_memWrite_same (s : State) (a v : Byte) : memRead (memWrite s a v) a = v := by
  simp [memRead]

/-- `MemWrite` changes only the cell it names (20_memory.md R53). -/
theorem memRead_memWrite_other (s : State) {a b : Byte} (v : Byte) (hb : b ≠ a) :
    memRead (memWrite s a v) b = memRead s b := by
  have h : addrOf b ≠ addrOf a := fun e => hb (uval_inj.mp e)
  simp [memRead, cellRead_write_other _ _ h]

theorem memWrite_wf {s : State} (h : Memory.wf s.dmem = true) (a v : Byte) :
    Memory.wf (memWrite s a v).dmem = true :=
  cellWrite_wf h (addrOf_lt a) v

theorem storeSlot_wf {s : State} (h : ProgramStore.wf s.prog = true) (slot : Byte) (w : Word) :
    ProgramStore.wf (storeSlot s slot w).prog = true :=
  cellWrite_wf h (uval_lt slot) w

theorem holdReset_wf (s : State) : Memory.wf (holdReset s).dmem = true := rfl

theorem reset_wf : Memory.wf State.reset.dmem = true ∧ ProgramStore.wf State.reset.prog = true := by decide

/-- Reading depends on the data memory alone. -/
theorem memRead_congr {s t : State} (h : t.dmem = s.dmem) (a : Byte) : memRead t a = memRead s a := by
  rw [memRead, memRead, h]

/-- The fetched instruction depends on the program store and pc alone (40_execution_cycle.md R102). -/
theorem fetched_congr {s t : State} (hp : t.prog = s.prog) (hc : t.pc = s.pc) : fetched t = fetched s := by
  rw [fetched, fetched, fetch, fetch, hp, hc]

end Sys2Proof.Machine
end

