-- ==== Sys2Proof/Laws/Decode.lean ====
section
/-!
SUPPORT. Laws/Decode.lean: the two fields of a word (30_encoding.md R70).
-/

namespace Sys2Proof

/-- `uval(word) = 256·uval(opc) + uval(imm)` (30_encoding.md R70). -/
theorem toNat_joinFields (opc imm : Byte) : (joinFields opc imm).toNat = 256 * opc.toNat + imm.toNat := by
  rw [joinFields, BitVec.toNat_append, ← Nat.shiftLeft_add_eq_or_of_lt imm.isLt, Nat.shiftLeft_eq]
  omega

theorem opcField_toNat (w : Word) : (opcField w).toNat = w.toNat / 256 := by
  have := w.isLt
  simp [opcField, BitVec.extractLsb'_toNat, Nat.shiftRight_eq_div_pow]
  omega

theorem immField_toNat (w : Word) : (immField w).toNat = w.toNat % 256 := by
  simp [immField, BitVec.extractLsb'_toNat]

@[simp] theorem opcField_joinFields (opc imm : Byte) : opcField (joinFields opc imm) = opc := by
  apply BitVec.eq_of_toNat_eq
  have := imm.isLt
  rw [opcField_toNat, toNat_joinFields]
  omega

@[simp] theorem immField_joinFields (opc imm : Byte) : immField (joinFields opc imm) = imm := by
  apply BitVec.eq_of_toNat_eq
  have := imm.isLt
  rw [immField_toNat, toNat_joinFields]
  omega

/-- A word is its two fields joined (30_encoding.md R70). -/
theorem joinFields_fields (w : Word) : joinFields (opcField w) (immField w) = w := by
  apply BitVec.eq_of_toNat_eq
  rw [toNat_joinFields, opcField_toNat, immField_toNat]
  omega

/-- The opcode map has no entry above 0x10 (30_encoding.md R75). -/
theorem instrOfOpcode_none {n : Nat} (h : 16 < n) (imm : Byte) : instrOfOpcode n imm = none := by
  unfold instrOfOpcode
  split <;> first | rfl | omega

end Sys2Proof
end

