-- ==== Sys2Proof/Laws/Exec.lean ====
section
/-!
SUPPORT. Laws/Exec.lean: what each meaning and each step can do, said once.
-/

namespace Sys2Proof.Machine

/-- The fields an arithmetic result changes are acc and pc (41_arithmetic.md R120). -/
theorem writeResult_eq (s : State) (r : Int) :
    writeResult s r = { s with acc := trunc8 r, pc := trunc8 ((uval s.pc : Int) + 1) } := rfl

/-- A DIV either faults on a zero cell or writes the quotient (41_arithmetic.md R124). -/
theorem execDiv_cases (a : Byte) (s : State) :
    (memRead s a = 0x00 ∧ execDiv a s = .next (raiseFault s .divByZero)) ∨
    (memRead s a ≠ 0x00 ∧ execDiv a s = .next (writeResult s (tdiv (sval s.acc) (sval (memRead s a))))) := by
  unfold execDiv
  by_cases h : memRead s a = 0x00
  · exact .inl ⟨h, if_pos h⟩
  · exact .inr ⟨h, if_neg h⟩

/-- An INP waits, stores the host's value, or stores a draw (43_io_halt.md R160). -/
theorem execInp_cases (a : Byte) (s : State) :
    (s.answers = [] ∧ execInp a s = .next (waitForAnswer s)) ∨
    (∃ v rest, s.answers = .value v :: rest ∧
      execInp a s = .next (advance (memWrite (takeAnswer s rest) a v))) ∨
    (∃ rest, s.answers = .invalid :: rest ∧
      execInp a s = .next (advance (memWrite (useDraw (takeAnswer s rest)) a (drawValue s)))) := by
  unfold execInp
  rcases h : s.answers with _ | ⟨x, rest⟩
  · exact .inl ⟨rfl, rfl⟩
  · cases x with
    | value v => exact .inr (.inl ⟨v, rest, rfl, rfl⟩)
    | invalid => exact .inr (.inr ⟨rest, rfl, rfl⟩)

/-- A jump leaves everything but pc, which is its target or the next slot (44_control.md R189). -/
theorem jumpIf_cases (taken : Bool) (t : Byte) (s : State) :
    (taken = true ∧ jumpIf taken t s = redirect s t) ∨ (taken = false ∧ jumpIf taken t s = advance s) := by
  cases taken
  · exact .inr ⟨rfl, rfl⟩
  · exact .inl ⟨rfl, rfl⟩

/-- A jump on a decided condition as one update of pc. -/
theorem jumpIf_decide (c : Prop) [Decidable c] (t : Byte) (s : State) :
    jumpIf (decide c) t s = { s with pc := if c then t else trunc8 ((uval s.pc : Int) + 1) } := by
  by_cases h : c
  · simp only [h, decide_true, if_true]
    rfl
  · simp only [h, decide_false, if_false]
    rfl

/-- Everything an executed instruction can leave, one case a shape of effect. -/
theorem exec_cases (i : Instr) (s : State) :
    (∃ v, exec i s = .next (advance (setAcc s v))) ∨
    (∃ a, i = .div a ∧ memRead s a = 0x00 ∧ exec i s = .next (raiseFault s .divByZero)) ∨
    (∃ a, i = .sta a ∧ exec i s = .next (advance (memWrite s a s.acc))) ∨
    (∃ a, i = .inp a ∧ exec i s = execInp a s) ∨
    (∃ a, i = .out a ∧ exec i s = .next (advance (emitOut s (memRead s a)))) ∨
    (∃ k, i = .hlt k ∧ exec i s = .next (haltWith s k)) ∨
    (exec i s = .next (redirect s (operandOf i))) ∨
    (exec i s = .next (advance s)) := by
  have jump (b : Bool) (t : Byte) : jumpIf b t s = redirect s t ∨ jumpIf b t s = advance s := by
    rcases jumpIf_cases b t s with h | h <;> simp [h.2]
  have branch {i : Instr} {b : Bool} {t : Byte} (he : exec i s = .next (jumpIf b t s)) (ho : operandOf i = t) :
      exec i s = .next (redirect s (operandOf i)) ∨ exec i s = .next (advance s) := by
    rw [he, ho]
    rcases jump b t with h | h <;> simp [h]
  cases i with
  | add a => exact .inl ⟨_, rfl⟩
  | sub a => exact .inl ⟨_, rfl⟩
  | mul a => exact .inl ⟨_, rfl⟩
  | div a =>
    rcases execDiv_cases a s with ⟨h, he⟩ | ⟨_, he⟩
    · exact .inr (.inl ⟨a, rfl, h, he⟩)
    · exact .inl ⟨_, he⟩
  | lda a => exact .inl ⟨_, rfl⟩
  | ldk k => exact .inl ⟨_, rfl⟩
  | sta a => exact .inr (.inr (.inl ⟨a, rfl, rfl⟩))
  | inp a => exact .inr (.inr (.inr (.inl ⟨a, rfl, rfl⟩)))
  | out a => exact .inr (.inr (.inr (.inr (.inl ⟨a, rfl, rfl⟩))))
  | hlt k => exact .inr (.inr (.inr (.inr (.inr (.inl ⟨k, rfl, rfl⟩)))))
  | jmp t => exact .inr (.inr (.inr (.inr (.inr (.inr (.inl rfl))))))
  | jez t => exact .inr (.inr (.inr (.inr (.inr (.inr (branch rfl rfl))))))
  | jne t => exact .inr (.inr (.inr (.inr (.inr (.inr (branch rfl rfl))))))
  | jlz t => exact .inr (.inr (.inr (.inr (.inr (.inr (branch rfl rfl))))))
  | jle t => exact .inr (.inr (.inr (.inr (.inr (.inr (branch rfl rfl))))))
  | jgz t => exact .inr (.inr (.inr (.inr (.inr (.inr (branch rfl rfl))))))
  | jge t => exact .inr (.inr (.inr (.inr (.inr (.inr (branch rfl rfl))))))

/-- Everything a step can do (40_execution_cycle.md R100 to R104, 70_reset_and_hazards.md R230). -/
theorem step_cases (s : State) :
    (s.rst = true ∧ step s = .next (holdReset s)) ∨
    (s.rst = false ∧ s.status.state ≠ .run ∧ step s = .next s) ∨
    (s.rst = false ∧ s.status.state = .run ∧ ∃ o, fetched s = .illegal o ∧
      step s = .next (raiseFault s .illegalOpcode)) ∨
    (s.rst = false ∧ s.status.state = .run ∧ ∃ i, fetched s = .insn i ∧ step s = exec i s) := by
  unfold step
  cases hr : s.rst
  · cases hs : s.status.state
    · cases hf : fetched s with
      | illegal o => exact .inr (.inr (.inl ⟨rfl, rfl, o, rfl, rfl⟩))
      | insn i => exact .inr (.inr (.inr ⟨rfl, rfl, i, rfl, rfl⟩))
    · exact .inr (.inl ⟨rfl, by simp, rfl⟩)
    · exact .inr (.inl ⟨rfl, by simp, rfl⟩)
  · exact .inl ⟨rfl, rfl⟩

end Sys2Proof.Machine
end

