-- ==== Sys2Proof/Laws/Operands.lean ====
section
/-!
SUPPORT. Laws/Operands.lean: the readings of 00_scope.md R12 and the quotient of R13 in terms of the library's.
-/

namespace Sys2Proof.Machine

/-- `trunc_8(n)` is the pattern whose unsigned value is n mod 256 (00_scope.md R12). -/
theorem toNat_trunc8 (n : Int) : ((trunc8 n).toNat : Int) = n % 256 := by
  unfold trunc8
  rw [BitVec.toNat_ofInt]
  have h : (0 : Int) ≤ n % 256 := Int.emod_nonneg _ (by decide)
  simpa using h

/-- Truncating a signed value gives the pattern back (00_scope.md R12). -/
@[simp] theorem trunc8_sval (v : Byte) : trunc8 (sval v) = v := BitVec.ofInt_toInt

/-- Truncating an unsigned value gives the pattern back (00_scope.md R12). -/
@[simp] theorem trunc8_uval (v : Byte) : trunc8 (uval v) = v := by simp [trunc8, uval]

/-- The pc an advance leaves, as arithmetic on patterns (40_execution_cycle.md R105). -/
theorem trunc8_uval_add_one (v : Byte) : trunc8 ((uval v : Int) + 1) = v + 1 := by
  apply BitVec.eq_of_toNat_eq
  have h := toNat_trunc8 ((uval v : Int) + 1)
  simp only [uval] at h ⊢
  rw [BitVec.toNat_add]
  have h1 : (1 : Byte).toNat = 1 := rfl
  omega

/-- The pc an advance leaves, as a number (40_execution_cycle.md R105). -/
theorem toNat_trunc8_uval_add_one (v : Byte) : (trunc8 ((uval v : Int) + 1)).toNat = (v.toNat + 1) % 256 := by
  have h := toNat_trunc8 ((uval v : Int) + 1)
  simp only [uval] at h ⊢
  omega

theorem sval_eq_zero {v : Byte} : sval v = 0 ↔ v = 0x00 := by
  constructor
  · intro h
    have := trunc8_sval v
    rw [h] at this
    exact this.symm
  · rintro rfl
    rfl

theorem sval_neg_iff {v : Byte} : sval v < 0 ↔ v.msb = true := by
  simp [sval, BitVec.toInt_neg_iff, BitVec.msb_eq_decide]
  omega

theorem sval_bounds (v : Byte) : -128 ≤ sval v ∧ sval v ≤ 127 := by
  have h1 := BitVec.le_toInt v
  have h2 := BitVec.toInt_lt (x := v)
  simp only [sval] at *
  omega

/-- The quotient of 00_scope.md R13 is the library's division toward zero. -/
theorem tdiv_eq (n d : Int) : tdiv n d = n.tdiv d := by
  unfold tdiv
  rcases Int.natAbs_eq n with h | h <;> rcases Int.natAbs_eq d with h' | h' <;>
    rw [h, h'] <;> generalize n.natAbs = x <;> generalize d.natAbs = y
  all_goals
    rcases Nat.eq_zero_or_pos x with rfl | hx <;> rcases Nat.eq_zero_or_pos y with rfl | hy <;>
      simp_all [Int.sign_eq_one_of_pos, Int.tdiv_neg, Int.neg_tdiv]

end Sys2Proof.Machine
end

