-- ==== Sys2Proof/Laws/PerInstr.lean ====
section
/-!
SUPPORT. Laws/PerInstr.lean: the family EncodedFields, one lemma per constructor of Instr: the word an
instruction encodes to is legal and carries its opcode number and its operand (30_encoding.md R70, R73).
-/

namespace Sys2Proof.Laws

/-- What encoding an instruction yields: its two fields, in a legal word. -/
def EncodedFields.Statement (i : Instr) : Prop :=
  opcField (encode i) = opcodeOf i ∧ immField (encode i) = operandOf i ∧ legalWord (encode i) = true

/-- A legal opcode number is all that a constructor's lemma has to give. -/
theorem encodedFields_of_opcode {i : Instr} (h : (opcodeOf i).toNat ≤ 16) : EncodedFields.Statement i := by
  refine ⟨by simp [encode], by simp [encode], ?_⟩
  have := (operandOf i).isLt
  simp only [legalWord, encode, toNat_joinFields, decide_eq_true_eq]
  omega

theorem EncodedFields.add (a : Byte) : EncodedFields.Statement (.add a) := encodedFields_of_opcode (Nat.le_of_ble_eq_true rfl)
theorem EncodedFields.sub (a : Byte) : EncodedFields.Statement (.sub a) := encodedFields_of_opcode (Nat.le_of_ble_eq_true rfl)
theorem EncodedFields.mul (a : Byte) : EncodedFields.Statement (.mul a) := encodedFields_of_opcode (Nat.le_of_ble_eq_true rfl)
theorem EncodedFields.div (a : Byte) : EncodedFields.Statement (.div a) := encodedFields_of_opcode (Nat.le_of_ble_eq_true rfl)
theorem EncodedFields.lda (a : Byte) : EncodedFields.Statement (.lda a) := encodedFields_of_opcode (Nat.le_of_ble_eq_true rfl)
theorem EncodedFields.ldk (k : Byte) : EncodedFields.Statement (.ldk k) := encodedFields_of_opcode (Nat.le_of_ble_eq_true rfl)
theorem EncodedFields.sta (a : Byte) : EncodedFields.Statement (.sta a) := encodedFields_of_opcode (Nat.le_of_ble_eq_true rfl)
theorem EncodedFields.inp (a : Byte) : EncodedFields.Statement (.inp a) := encodedFields_of_opcode (Nat.le_of_ble_eq_true rfl)
theorem EncodedFields.out (a : Byte) : EncodedFields.Statement (.out a) := encodedFields_of_opcode (Nat.le_of_ble_eq_true rfl)
theorem EncodedFields.hlt (k : Byte) : EncodedFields.Statement (.hlt k) := encodedFields_of_opcode (Nat.le_of_ble_eq_true rfl)
theorem EncodedFields.jmp (t : Byte) : EncodedFields.Statement (.jmp t) := encodedFields_of_opcode (Nat.le_of_ble_eq_true rfl)
theorem EncodedFields.jez (t : Byte) : EncodedFields.Statement (.jez t) := encodedFields_of_opcode (Nat.le_of_ble_eq_true rfl)
theorem EncodedFields.jne (t : Byte) : EncodedFields.Statement (.jne t) := encodedFields_of_opcode (Nat.le_of_ble_eq_true rfl)
theorem EncodedFields.jlz (t : Byte) : EncodedFields.Statement (.jlz t) := encodedFields_of_opcode (Nat.le_of_ble_eq_true rfl)
theorem EncodedFields.jle (t : Byte) : EncodedFields.Statement (.jle t) := encodedFields_of_opcode (Nat.le_of_ble_eq_true rfl)
theorem EncodedFields.jgz (t : Byte) : EncodedFields.Statement (.jgz t) := encodedFields_of_opcode (Nat.le_of_ble_eq_true rfl)
theorem EncodedFields.jge (t : Byte) : EncodedFields.Statement (.jge t) := encodedFields_of_opcode (Nat.le_of_ble_eq_true rfl)

end Sys2Proof.Laws
end

