-- ==== Sys2Proof/Laws/Run.lean ====
section
/-!
SUPPORT. Laws/Run.lean: a run of the host's machine, one step at a time (40_execution_cycle.md R110).
-/

namespace Sys2Proof.Machine

theorem run_zero (s : State) : core.run 0 s = .next s := rfl

theorem run_succ_of_step {s t : State} (h : step s = .next t) (k : Nat) : core.run (k + 1) s = core.run k t := by
  have h' : core.step s = .next t := h
  have hr := Host.Core.run.eq_2 core s k
  rw [h'] at hr
  exact hr

/-- A property that every step keeps holds along every run. -/
theorem run_keeps {P : State → Prop} (hstep : ∀ s, P s → ∃ t, step s = .next t ∧ P t) :
    ∀ (k : Nat) (s t : State), P s → core.run k s = .next t → P t := by
  intro k
  induction k with
  | zero =>
    intro s t hs h
    cases h
    exact hs
  | succ k ih =>
    intro s t hs h
    obtain ⟨u, hu, hp⟩ := hstep s hs
    rw [run_succ_of_step hu] at h
    exact ih u t hp h

end Sys2Proof.Machine
end

