-- ==== Sys2Proof/Tests/Slice0.lean ====
section
/-!
SUPPORT. Tests/Slice0.lean: small tests, their expected values taken from 95_test_vectors.md (named V-…) or worked
by hand from the rule cited, and for every obligation with hypotheses a witness that meets them.
-/

namespace Sys2Proof.Tests

open Sys2Proof.Machine

/-- A state in RUN with the given acc, pc, data and one program word at pc. -/
def at1 (acc pc : Byte) (dmem : Memory) (w : Word) : State :=
  { State.reset with acc := acc, pc := pc, dmem := dmem, prog := cellWrite [] (uval pc) w }

/-- A field of the state after one step. -/
def after {α : Type} (s : State) (f : State → α) : Option α :=
  match step s with
  | .next t => some (f t)
  | .fault _ => none
  | .refused _ => none

/-- The step neither faults nor is refused. -/
def steps (s : State) : Bool := (after s fun _ => ()).isSome

/-! ### Well-formedness: an ill-formed term for each check -/

theorem test_legal_word_refused : legalWord 0x1100 = false ∧ legalWord 0xFFFF = false ∧ legalWord 0x10FF = true := by
  decide

theorem test_image_too_long : imageFits (List.replicate 257 0x0501) = false := by
  rw [imageFits, List.length_replicate]
  decide

theorem test_cells_not_rising : cellsWf [(3, (0x01 : Byte)), (3, 0x02)] = false := by decide

theorem test_cells_zero_entry : cellsWf [(3, (0x00 : Byte))] = false := by decide

theorem test_cells_out_of_space : cellsWf [(256, (0x01 : Byte))] = false := by decide

/-! ### Decoding, each word written out from 30_encoding.md R73 -/

theorem test_decode_add : decode 0b0000000000001001 = .insn (.add 0x09) := by decide
theorem test_decode_sub : decode 0b0000000100000001 = .insn (.sub 0x01) := by decide
theorem test_decode_mul : decode 0b0000001011111111 = .insn (.mul 0xFF) := by decide
theorem test_decode_div : decode 0b0000001100001011 = .insn (.div 0x0B) := by decide
theorem test_decode_lda : decode 0b0000010010000000 = .insn (.lda 0x80) := by decide
theorem test_decode_ldk : decode 0b0000010111111111 = .insn (.ldk 0xFF) := by decide
theorem test_decode_sta : decode 0b0000011000001010 = .insn (.sta 0x0A) := by decide
theorem test_decode_inp : decode 0b0000011100000011 = .insn (.inp 0x03) := by decide
theorem test_decode_out : decode 0b0000100000001001 = .insn (.out 0x09) := by decide
theorem test_decode_hlt : decode 0b0000100100101010 = .insn (.hlt 0x2A) := by decide
theorem test_decode_jmp : decode 0b0000101010000000 = .insn (.jmp 0x80) := by decide
theorem test_decode_jez : decode 0b0000101100001010 = .insn (.jez 0x0A) := by decide
theorem test_decode_jne : decode 0b0000110000001010 = .insn (.jne 0x0A) := by decide
theorem test_decode_jlz : decode 0b0000110100001010 = .insn (.jlz 0x0A) := by decide
theorem test_decode_jle : decode 0b0000111000001010 = .insn (.jle 0x0A) := by decide
theorem test_decode_jgz : decode 0b0000111100001010 = .insn (.jgz 0x0A) := by decide
theorem test_decode_jge : decode 0b0001000011111111 = .insn (.jge 0xFF) := by decide

/-- V-DEC-6, V-DEC-7, V-DEC-8. -/
theorem test_decode_illegal :
    decode 0x1100 = .illegal 0x11 ∧ decode 0xFFFF = .illegal 0xFF ∧ decode 0x8005 = .illegal 0x80 := by decide

theorem test_decodeTableWord : decodeTableWord 16 0x0F06 = some (.jgz 0x06) ∧ decodeTableWord 16 0x1100 = none := by
  decide

/-- The row's instruction is the first one run after reset: LDK -1 (V-LDK-2). -/
theorem test_withFetchWord : after (State.reset.withFetchWord 16 0x05FF) (fun t => (t.acc, t.pc)) = some (0xFF, 0x01) := by
  decide

/-! ### Arithmetic: the instruction stands at pc = 0x20 and names cell 9 -/

/-- V-ADD-3. -/
theorem test_add_wraps : after (at1 0x7F 0x20 [(9, 0x01)] 0x0009) (fun t => (t.acc, t.pc)) = some (0x80, 0x21) := by
  decide

/-- The index corner of section 2.3: `add -1` adds cell 255. -/
theorem test_add_cell_255 : after (at1 0x01 0x20 [(255, 0x03)] 0x00FF) State.acc = some 0x04 := by decide

/-- V-SUB-1: accumulator minus cell. -/
theorem test_sub_order : after (at1 0x03 0x20 [(9, 0x0A)] 0x0109) State.acc = some 0xF9 := by decide

/-- V-SUB-3. -/
theorem test_sub_min : after (at1 0x00 0x20 [(9, 0x80)] 0x0109) State.acc = some 0x80 := by decide

/-- V-MUL-7. -/
theorem test_mul_signed : after (at1 0x0A 0x20 [(9, 0xF3)] 0x0209) State.acc = some 0x7E := by decide

/-- V-MUL-3. -/
theorem test_mul_min : after (at1 0x80 0x20 [(9, 0xFF)] 0x0209) State.acc = some 0x80 := by decide

/-- V-DIV-2: toward zero. -/
theorem test_div_rounds : after (at1 0xF9 0x20 [(9, 0x02)] 0x0309) (fun t => (t.acc, t.pc)) = some (0xFD, 0x21) := by
  decide

/-- V-DIV-0. -/
theorem test_div_by_zero : after (at1 0x05 0x20 [] 0x0309) (fun t => (t.acc, t.pc, t.status)) =
    some (0x05, 0x20, { state := .faulted, haltCode := 0x00, faultCause := .divByZero, faultPc := 0x20 }) := by
  decide

/-- The table of 41_arithmetic.md R125, and V-DIV-11. -/
theorem test_tdiv_table :
    [(7, 2), (-7, 2), (7, -2), (-7, -2), (0, -5), (-1, 2), (127, -128), (-128, -128), (-128, 2), (-128, 1),
      (-128, -1)].map (fun p : Int × Int => trunc8 (tdiv p.1 p.2)) =
      [0x03, 0xFD, 0xFD, 0x03, 0x00, 0x00, 0x00, 0x01, 0xC0, 0x80, 0x80] := by decide

/-! ### Transfer: at pc = 0x30 -/

/-- V-LDA-2. -/
theorem test_lda_cell_255 : after (at1 0x11 0x30 [(255, 0x2A)] 0x04FF) (fun t => (t.acc, t.pc)) = some (0x2A, 0x31) := by
  decide

/-- V-LDA-3. -/
theorem test_lda_unwritten : after (at1 0x11 0x30 [] 0x04C8) State.acc = some 0x00 := by decide

/-- V-LDK-2. -/
theorem test_ldk : after (at1 0x77 0x30 [] 0x05FF) State.acc = some 0xFF := by decide

/-- V-STA-2. -/
theorem test_sta : after (at1 0x80 0x30 [(3, 0x01)] 0x06FF) (fun t => (t.dmem, t.acc)) =
    some ([(3, 0x01), (255, 0x80)], 0x80) := by decide

/-- Storing 0x00 unlists the cell, so that equal memories are equal lists. -/
theorem test_sta_zero_unlists : after (at1 0x00 0x30 [(3, 0x01)] 0x0603) State.dmem = some [] := by decide

/-! ### Input, output, halt: at pc = 0x40 -/

/-- V-INP-1. -/
theorem test_inp_value : after { at1 0x11 0x40 [] 0x0703 with answers := [.value 0x2A, .invalid] }
    (fun t => (t.dmem, t.acc, t.pc, t.answers)) = some ([(3, 0x2A)], 0x11, 0x41, [.invalid]) := by decide

/-- V-INP-4. -/
theorem test_inp_waits : after (at1 0x11 0x40 [] 0x0703) (fun t => (t.pc, t.status, (ports t).inReq)) =
    some (0x40, Status.reset, true) := by decide

/-- V-INP-3: whatever value the draw is, nothing faults, pc advances, and no other cell changes. -/
theorem test_inp_invalid : after { at1 0x11 0x40 [] 0x0703 with answers := [.invalid] }
    (fun t => (t.pc, t.status, t.draws)) = some (0x41, Status.reset, 1) := by rfl

/-- V-OUT-2, and V-OUT-4's point: the accumulator is not output. -/
theorem test_out : after (at1 0x33 0x40 [(9, 0xF6)] 0x0809) (fun t => (t.outs, t.pc)) = some ([0xF6], 0x41) := by decide

/-- The outputs in the clock of an OUT (10_state.md R41). -/
theorem test_out_port : (ports (at1 0x33 0x40 [(9, 0xF6)] 0x0809)).outData = some 0xF6 := by decide

/-- V-HLT-4: the operand, not the cell it would name. -/
theorem test_hlt : after (at1 0x00 0x40 [(5, 0x63)] 0x0905) (fun t => (t.status, t.pc)) =
    some ({ state := .halted, haltCode := 0x05, faultCause := .none, faultPc := 0x00 }, 0x40) := by decide

/-! ### Control transfer: the jump stands at pc = 0x50 with target 0x0A (the table of section 2.6) -/

/-- pc after the jump for acc = -128, -1, 0, 1, 127. -/
def jumpRow (w : Word) : List (Option Byte) :=
  [0x80, 0xFF, 0x00, 0x01, 0x7F].map fun acc => after (at1 acc 0x50 [] w) State.pc

theorem test_jez : jumpRow 0x0B0A = [some 0x51, some 0x51, some 0x0A, some 0x51, some 0x51] := by decide
theorem test_jne : jumpRow 0x0C0A = [some 0x0A, some 0x0A, some 0x51, some 0x0A, some 0x0A] := by decide
theorem test_jlz : jumpRow 0x0D0A = [some 0x0A, some 0x0A, some 0x51, some 0x51, some 0x51] := by decide
theorem test_jle : jumpRow 0x0E0A = [some 0x0A, some 0x0A, some 0x0A, some 0x51, some 0x51] := by decide
theorem test_jgz : jumpRow 0x0F0A = [some 0x51, some 0x51, some 0x51, some 0x0A, some 0x0A] := by decide
theorem test_jge : jumpRow 0x100A = [some 0x51, some 0x51, some 0x0A, some 0x0A, some 0x0A] := by decide

/-- V-JMP-2. -/
theorem test_jmp : after (at1 0x00 0x50 [] 0x0AFF) State.pc = some 0xFF := by decide

/-- V-JCC-1: a jump not taken at slot 255 falls through to slot 0. -/
theorem test_jez_wraps : after (at1 0x01 0xFF [] 0x0B03) State.pc = some 0x00 := by decide

/-! ### Cycle, faults, reset -/

/-- V-FLT-1. -/
theorem test_illegal_word : after (at1 0x07 0x12 [] 0x1234) (fun t => (t.acc, t.pc, t.status)) =
    some (0x07, 0x12, { state := .faulted, haltCode := 0x00, faultCause := .illegalOpcode, faultPc := 0x12 }) := by
  decide

/-- A stopped state: FAULTED at slot 0x12 (V-FLT-1), with a cell set. -/
def stopped : State :=
  { at1 0x07 0x12 [(3, 0x09)] 0x1234 with
    status := { state := .faulted, haltCode := 0x00, faultCause := .illegalOpcode, faultPc := 0x12 } }

/-- V-FLT-2. -/
theorem test_stopped_no_step : after stopped id = some stopped := by decide

/-- V-RST-1. -/
theorem test_reset_from_faulted : after { stopped with rst := true } id =
    some { State.reset with rst := true, prog := stopped.prog } := by decide

/-- The status codes of 10_state.md R30 on the outputs. -/
theorem test_status_outputs : ((ports stopped).faulted, (ports stopped).faultCause, (ports stopped).faultPc) =
    (true, 0x02, 0x12) := by decide

/-! ### The host's side -/

/-- V-OUT-1, V-OUT-2, V-OUT-3: the text the host prints. -/
theorem test_out_text : outText 0x08 = ['8', '\n'] ∧ outText 0xF6 = ['-', '1', '0', '\n'] ∧
    outText 0x80 = ['-', '1', '2', '8', '\n'] := by decide

/-- E8: `hlt 42` exits with status 42. -/
theorem test_exit_status : (after (at1 0x00 0x00 [] 0x092A) exitStatus) = some (some 42) := by decide

/-- 60_exceptions.md R214, 70_reset_and_hazards.md R230: with reset asserted the host loads an image, and the first
step after its release runs slot 0. -/
theorem test_boot :
    (match hostLoadImage [0x0505, 0x0600] { State.reset with rst := true } with
      | .next s => after { s with rst := false } (fun t => (t.acc, t.pc, t.prog))
      | .fault _ => none
      | .refused _ => none) = some (0x05, 0x01, [(0, 0x0505), (1, 0x0600)]) := by decide

/-- The codes of the field `state` (10_state.md R30). -/
theorem test_state_codes : runStateCode .run = 0b00 ∧ runStateCode .halted = 0b01 ∧ runStateCode .faulted = 0b10 := by
  decide

/-- 60_exceptions.md R214: no load while reset is released. -/
theorem test_load_refused : hostLoad 0x00 0x0505 State.reset = .refused .hostOutsideInterface ∧
    hostLoadImage [0x0505] State.reset = .refused .hostOutsideInterface := ⟨rfl, rfl⟩

/-- 60_exceptions.md R214, 70_reset_and_hazards.md R230: the clock that releases reset runs slot 0. -/
theorem test_release_clock :
    (match clock { rst := false, inValid := false, inInvalid := false, inData := 0x00 }
        { State.reset.withFetchWord 16 0x0505 with rst := true } with
      | .next t => some (t.acc, t.pc, t.rst)
      | .fault _ => none
      | .refused _ => none) = some (0x05, 0x01, false) := by decide

/-! ### The assembler -/

/-- The word a line assembles to. -/
def asmWord (line : List Char) : Option Word :=
  match assembleLine line with
  | .ok (some i) => some (encode i)
  | .ok none => none
  | .error _ => none

/-- V-ASM-2: leading spaces, a sign, a comment. -/
theorem test_asm_comment : asmWord [' ', '\t', 'l', 'd', 'k', ' ', '-', '1', ' ', ';', 'x', ' ', 'y'] = some 0x05FF := by
  decide

/-- V-ASM-3, V-ASM-4, V-ASM-10: hexadecimal, octal, and a digit that is not octal. -/
theorem test_asm_bases : asmWord ['J', 'm', 'p', ' ', '0', 'x', '1', '0'] = some 0x0A10 ∧
    asmWord ['l', 'd', 'k', ' ', '0', '1', '0'] = some 0x0508 ∧
    asmWord ['l', 'd', 'k', ' ', '0', '8'] = some 0x0500 := by decide

/-- V-ASM-5, V-ASM-7, V-ASM-9: truncation, and characters after the number. -/
theorem test_asm_truncates : asmWord ['l', 'd', 'k', ' ', '2', '0', '0'] = some 0x05C8 ∧
    asmWord ['l', 'd', 'k', ' ', '-', '1', '2', '9'] = some 0x057F ∧
    asmWord ['l', 'd', 'k', ' ', '1', '2', 'a', 'b', 'c'] = some 0x050C := by decide

/-- 30_encoding.md R87: the literal is the longest prefix that fits, be it the sign and hexadecimal digits, the `0`
of an `0x` without digits, or the octal digits before an 8. -/
theorem test_asm_literal_text : literalText ['-', '0', 'x', 'F', 'g'] = ['-', '0', 'x', 'F'] ∧
    literalText ['0', 'x', 'g'] = ['0'] ∧ literalText ['0', '1', '8'] = ['0', '1'] ∧
    literalText ['9', 'a', 'b', 'c'] = ['9'] ∧ literalText ['+', 'a'] = [] := by decide

/-- V-ASM-13, V-ASM-14, V-ASM-15: the fatal errors. -/
theorem test_asm_fatal :
    assemble ['l', 'd', 'k', ' ', 'a', 'b', 'c'] = .fatal .invalidOperand ∧
    assemble ['h', 'l', 't'] = .fatal .invalidOperand ∧
    assemble ['f', 'o', 'o', ' ', '1'] = .fatal .invalidOperator := by decide

/-- V-ASM-16 and V-ASM-1: lines without an instruction use no slot. -/
theorem test_asm_discarded :
    assemble [';', ' ', 'n', '\n', '\n', '\t', ' ', '\n', 'L', 'D', 'K', ' ', '5', '\n'] = .program [.ldk 0x05] := by
  decide

/-! ### Witnesses: the hypotheses of each obligation can be met together -/

/-- The outcome of a step that goes on. -/
theorem step_of_after {s t : State} (h : after s id = some t) : step s = .next t := by
  unfold after at h
  split at h
  · next u hu =>
    cases h
    exact hu
  · cases h
  · cases h

theorem witness_ResetHeldFromAnyState : { stopped with rst := true }.rst = true := by decide

theorem witness_StepRunsFetchedInstr : Running (at1 0x03 0x20 [] 0x0109) ∧
    decode (cellRead (at1 0x03 0x20 [] 0x0109).prog (0x20 : Byte).toNat) = .insn (.sub 0x09) := by
  refine ⟨⟨rfl, rfl⟩, ?_⟩
  decide

/-- The least illegal opcode and the greatest. -/
theorem witness_IllegalWordFaults : Running (at1 0x03 0xFF [] 0x1100) ∧
    0x11 ≤ (cellRead (at1 0x03 0xFF [] 0x1100).prog (0xFF : Byte).toNat).toNat / 256 ∧
    0x11 ≤ (cellRead (at1 0x03 0xFF [] 0xFFFF).prog (0xFF : Byte).toNat).toNat / 256 := by
  refine ⟨⟨rfl, rfl⟩, ?_⟩
  decide

theorem witness_EncodeDecodeInverse : legalWord 0x10FF = true := by decide

/-- The words on both sides of the bound. -/
theorem witness_DecoderTotalByOpcodeField : (0x10FF : Word).toNat / 256 ≤ 0x10 ∧ 0x11 ≤ (0x1100 : Word).toNat / 256 := by
  decide

theorem witness_ZeroWordAddsCellZero : Running (at1 0x02 0xFF [(0, 0x03)] 0x0000) ∧
    cellRead (at1 0x02 0xFF [(0, 0x03)] 0x0000).prog (0xFF : Byte).toNat = 0x0000 := by
  refine ⟨⟨rfl, rfl⟩, ?_⟩
  decide

/-- At slot 255, with the operand that names cell 255. -/
theorem witness_AddSubMulWrap : (0x03 : Byte) = cellRead (at1 0x01 0xFF [(255, 0x03)] 0x00FF).dmem (0xFF : Byte).toNat ∧
    IsNextSlot (at1 0x01 0xFF [(255, 0x03)] 0x00FF).pc 0x00 := by
  unfold IsNextSlot
  decide

theorem witness_LoadsWriteAccumulator : IsNextSlot (at1 0x11 0xFF [(255, 0x2A)] 0x04FF).pc 0x00 := rfl

theorem witness_StaStoresOneCell : IsNextSlot (at1 0x80 0x30 [(3, 0x01)] 0x06FF).pc 0x31 := rfl

theorem witness_JumpsCompareSignedAccumulator : IsNextSlot (at1 0x80 0xFF [] 0x0B03).pc 0x00 := rfl

theorem witness_JumpsOnAccumulatorBits : IsNextSlot (at1 0x7F 0x50 [] 0x0F0A).pc 0x51 := rfl

/-- The three divisors of `DivTruncatesOrFaults`: zero, one that is not zero, and -1 under acc = -128. -/
theorem witness_DivTruncatesOrFaults : IsNextSlot 0x20 0x21 ∧
    cellRead (at1 0x05 0x20 [] 0x0309).dmem (0x09 : Byte).toNat = 0x00 ∧
    cellRead (at1 0x05 0x20 [(9, 0x02)] 0x0309).dmem (0x09 : Byte).toNat ≠ 0x00 ∧
    cellRead (at1 0x80 0x20 [(9, 0xFF)] 0x0309).dmem (0x09 : Byte).toNat = 0xFF := by
  unfold IsNextSlot
  decide

/-- A state at `inp 3` with the given answers. -/
def atInp (answers : List Answer) : State := { at1 0x11 0x40 [] 0x0703 with answers := answers }

theorem witness_InpStoresAnswer : IsNextSlot 0x40 0x41 ∧ (atInp [.value 0x2A]).answers = .value 0x2A :: [] ∧
    (atInp [.invalid]).answers = .invalid :: [] := by
  unfold IsNextSlot
  decide

theorem witness_InpWaitsWithoutAnswer :
    Running (atInp []) ∧ fetched (atInp []) = .insn (.inp 0x03) ∧ (atInp []).answers = [] := by
  refine ⟨⟨rfl, rfl⟩, ?_⟩
  decide

theorem witness_OutEmitsCell : IsNextSlot 0x40 0x41 ∧ Running (at1 0x33 0x40 [(9, 0xF6)] 0x0809) ∧
    fetched (at1 0x33 0x40 [(9, 0xF6)] 0x0809) = .insn (.out 0x09) := by
  refine ⟨rfl, ⟨rfl, rfl⟩, ?_⟩
  decide

theorem witness_HltRecordsOperand :
    ∃ t, exec (.hlt 0x2A) State.reset = .next t ∧ t.rst = false ∧ step t = .next t :=
  ⟨_, rfl, rfl, rfl⟩

/-- The five forms of `FrameAccumulatorForms`. -/
theorem witness_FrameAccumulatorForms : (∃ t, exec (.add 0x09) State.reset = .next t) ∧
    (∃ t, exec (.sub 0x09) State.reset = .next t) ∧ (∃ t, exec (.mul 0x09) State.reset = .next t) ∧
    (∃ t, exec (.lda 0x09) State.reset = .next t) ∧ ∃ t, exec (.ldk 0x09) State.reset = .next t :=
  ⟨⟨_, rfl⟩, ⟨_, rfl⟩, ⟨_, rfl⟩, ⟨_, rfl⟩, _, rfl⟩

/-- Both divisors of `FrameDiv`. -/
theorem witness_FrameDiv :
    (∃ t, exec (.div 0x09) (at1 0x05 0x20 [] 0x0309) = .next t ∧ memRead (at1 0x05 0x20 [] 0x0309) 0x09 = 0x00) ∧
    ∃ t, exec (.div 0x09) (at1 0x05 0x20 [(9, 0x02)] 0x0309) = .next t ∧
      memRead (at1 0x05 0x20 [(9, 0x02)] 0x0309) 0x09 ≠ 0x00 :=
  ⟨⟨_, rfl, rfl⟩, _, rfl, by decide⟩

theorem witness_FrameStoringForms :
    (∃ t, exec (.sta 0xFF) (at1 0x80 0x30 [] 0x06FF) = .next t) ∧
    (∃ t, exec (.inp 0x03) (atInp [.value 0x2A]) = .next t) ∧
    ∃ t, exec (.inp 0x03) (atInp []) = .next t ∧ (atInp []).answers = [] :=
  ⟨⟨_, rfl⟩, ⟨_, rfl⟩, _, rfl, rfl⟩

theorem witness_FrameOutHlt :
    (∃ t, exec (.out 0x09) State.reset = .next t) ∧ ∃ t, exec (.hlt 0x09) State.reset = .next t :=
  ⟨⟨_, rfl⟩, _, rfl⟩

/-- The seven forms of `FrameJumps`. -/
theorem witness_FrameJumps : (∃ t, exec (.jmp 0x0A) State.reset = .next t) ∧
    (∃ t, exec (.jez 0x0A) State.reset = .next t) ∧ (∃ t, exec (.jne 0x0A) State.reset = .next t) ∧
    (∃ t, exec (.jlz 0x0A) State.reset = .next t) ∧ (∃ t, exec (.jle 0x0A) State.reset = .next t) ∧
    (∃ t, exec (.jgz 0x0A) State.reset = .next t) ∧ ∃ t, exec (.jge 0x0A) State.reset = .next t :=
  ⟨⟨_, rfl⟩, ⟨_, rfl⟩, ⟨_, rfl⟩, ⟨_, rfl⟩, ⟨_, rfl⟩, ⟨_, rfl⟩, _, rfl⟩

theorem witness_AccumulatorWriters : ∃ t, (at1 0x77 0x30 [] 0x05FF).rst = false ∧
    step (at1 0x77 0x30 [] 0x05FF) = .next t ∧ t.acc ≠ (at1 0x77 0x30 [] 0x05FF).acc :=
  ⟨advance (setAcc (at1 0x77 0x30 [] 0x05FF) 0xFF), rfl, step_of_after (by decide), by decide⟩

/-- The four forms of `AccumulatorNotReadByIoHaltJmp`. -/
theorem witness_AccumulatorNotReadByIoHaltJmp :
    (∃ t, exec (.inp 0x03) (atInp [.value 0x2A]) = .next t) ∧ (∃ t, exec (.out 0x03) State.reset = .next t) ∧
    (∃ t, exec (.hlt 0x03) State.reset = .next t) ∧ ∃ t, exec (.jmp 0x03) State.reset = .next t :=
  ⟨⟨_, rfl⟩, ⟨_, rfl⟩, ⟨_, rfl⟩, _, rfl⟩

theorem witness_DataWriters : ∃ t, (at1 0x80 0x30 [] 0x06FF).rst = false ∧ step (at1 0x80 0x30 [] 0x06FF) = .next t ∧
    memRead t 0xFF ≠ memRead (at1 0x80 0x30 [] 0x06FF) 0xFF :=
  ⟨advance (memWrite (at1 0x80 0x30 [] 0x06FF) 0xFF 0x80), rfl, step_of_after (by decide), by decide⟩

theorem witness_ProgramStoreReadOnly : (∃ t, step State.reset = .next t) ∧ State.reset.rst = false :=
  ⟨⟨_, rfl⟩, rfl⟩

/-- A step that advances, one that redirects, and one that leaves pc. -/
theorem witness_PcMovesThreeWays : State.reset.rst = false ∧ after State.reset State.pc = some 0x01 ∧
    after (at1 0x00 0x50 [] 0x0AFF) State.pc = some 0xFF ∧ after (at1 0x00 0x40 [] 0x0905) State.pc = some 0x40 := by
  decide

/-- `state` changes by HLT, by a fault and by reset, and stays in FAULTED. -/
theorem witness_StateChangesOnlyByHltFaultReset :
    after (at1 0x00 0x40 [] 0x0905) (fun t => t.status.state) = some .halted ∧
    after (at1 0x07 0x12 [] 0x1234) (fun t => t.status.state) = some .faulted ∧
    after { stopped with rst := true } (fun t => t.status.state) = some .run ∧
    stopped.rst = false ∧ stopped.status.state ≠ .run := by decide

theorem witness_StoppedStaysStopped : stopped.rst = false ∧ stopped.status.state ≠ .run := by decide

/-- Both faults, from RUN. -/
theorem witness_FaultsExactlyAndPrecisely :
    Running (at1 0x07 0x12 [] 0x1234) ∧ Running (at1 0x05 0x20 [] 0x0309) ∧
    (∃ t, step (at1 0x07 0x12 [] 0x1234) = .next t ∧ t.status.state = .faulted) ∧
    ∃ t, step (at1 0x05 0x20 [] 0x0309) = .next t ∧ t.status.state = .faulted :=
  ⟨⟨rfl, rfl⟩, ⟨rfl, rfl⟩, ⟨raiseFault (at1 0x07 0x12 [] 0x1234) .illegalOpcode, step_of_after (by decide), rfl⟩,
    raiseFault (at1 0x05 0x20 [] 0x0309) .divByZero, step_of_after (by decide), rfl⟩

/-- A step with an event, and one that takes an answer. -/
theorem witness_HostEventsInOrder : (∃ t, step (at1 0x33 0x40 [(9, 0xF6)] 0x0809) = .next t) ∧
    (portOut (at1 0x33 0x40 [(9, 0xF6)] 0x0809)).isSome = true ∧ (∃ t, step (atInp [.value 0x2A]) = .next t) ∧
    after (atInp [.value 0x2A]) State.answers = some [] :=
  ⟨⟨advance (emitOut (at1 0x33 0x40 [(9, 0xF6)] 0x0809) 0xF6), step_of_after (by decide)⟩, by decide,
    ⟨advance (memWrite (takeAnswer (atInp [.value 0x2A]) []) 0x03 0x2A), step_of_after (by decide)⟩, by decide⟩

theorem witness_OutEventsNotRead : ∃ t, step (at1 0x33 0x40 [(9, 0xF6)] 0x0809) = .next t :=
  ⟨advance (emitOut (at1 0x33 0x40 [(9, 0xF6)] 0x0809) 0xF6), step_of_after (by decide)⟩

/-- At an INP whose answer is a Value. -/
theorem witness_DrawUsedOnlyByInvalidInp : (∃ t, step (atInp [.value 0x2A]) = .next t) ∧
    ∀ a rest, fetched (atInp [.value 0x2A]) = .insn (.inp a) → (atInp [.value 0x2A]).answers ≠ .invalid :: rest :=
  ⟨⟨advance (memWrite (takeAnswer (atInp [.value 0x2A]) []) 0x03 0x2A), step_of_after (by decide)⟩,
    fun _ _ _ h => by cases h⟩

/-- The first instruction of each pair of `NoHazards`: one that writes a cell, and one that jumps. -/
theorem witness_NoHazards : (∃ t, exec (.sta 0x03) (atInp []) = .next t) ∧
    (∃ t, (atInp [.value 0x2A]).answers = .value 0x2A :: [] ∧ exec (.inp 0x03) (atInp [.value 0x2A]) = .next t) ∧
    (∃ t, (atInp [.invalid]).answers = .invalid :: [] ∧ exec (.inp 0x03) (atInp [.invalid]) = .next t) ∧
    (∃ t, exec (.jmp 0x03) (atInp []) = .next t) ∧ ∃ t, exec (.jge 0x03) (atInp []) = .next t :=
  ⟨⟨_, rfl⟩, ⟨_, rfl, rfl⟩, ⟨_, rfl, rfl⟩, ⟨_, rfl⟩, _, rfl⟩

/-- The writers of acc in `NoHazards`, from acc = -7 and cell 9 = 2, with the result each leaves. -/
theorem witness_NoHazards_acc :
    (0x02 : Byte) = cellRead (at1 0xF9 0x20 [(9, 0x02)] 0x0309).dmem (0x09 : Byte).toNat ∧
    ((0xFB : Byte).toNat : Int) = ((0xF9 : Byte).toInt + (0x02 : Byte).toInt) % 256 ∧
    ((0xF7 : Byte).toNat : Int) = ((0xF9 : Byte).toInt - (0x02 : Byte).toInt) % 256 ∧
    ((0xF2 : Byte).toNat : Int) = ((0xF9 : Byte).toInt * (0x02 : Byte).toInt) % 256 ∧
    ((0xFD : Byte).toNat : Int) = ((0xF9 : Byte).toInt.tdiv (0x02 : Byte).toInt) % 256 ∧
    [Instr.ldk 0x00, .lda 0x09, .add 0x09, .sub 0x09, .mul 0x09, .div 0x09].map (fun i =>
      match exec i (at1 0xF9 0x20 [(9, 0x02)] 0x0309) with
      | .next t => some t.acc
      | .fault _ => none
      | .refused _ => none) = [some 0x00, some 0x02, some 0xFB, some 0xF7, some 0xF2, some 0xFD] := by
  decide

/-- A FAULTED state that meets the invariant. -/
theorem inv_stopped : Inv stopped where
  data := by decide
  prog := by decide
  status := ⟨rfl, rfl, 0x12, by decide⟩
  wait := fun h => by cases h

/-- A state in RUN with one word meets the invariant. -/
theorem inv_at1 (acc pc : Byte) (dmem : Memory) (w : Word) (h : Memory.wf dmem = true) : Inv (at1 acc pc dmem w) where
  data := h
  prog := cellWrite_wf cellsWf_nil (uval_lt pc) w
  status := rfl
  wait := fun h => by cases h

/-- Steps that change the state, from states that meet the invariant: a store, an INP that begins to wait, a HLT, a
fault, and reset. -/
theorem witness_InvKeptByStep :
    (Inv (at1 0x80 0x30 [(3, 0x01)] 0x06FF) ∧
      after (at1 0x80 0x30 [(3, 0x01)] 0x06FF) (fun t => (t.dmem, t.pc)) = some ([(3, 0x01), (255, 0x80)], 0x31)) ∧
    (Inv (at1 0x11 0x40 [] 0x0703) ∧ after (at1 0x11 0x40 [] 0x0703) State.inpPending = some true) ∧
    (Inv (at1 0x00 0x40 [] 0x0905) ∧ after (at1 0x00 0x40 [] 0x0905) (fun t => t.status.state) = some .halted) ∧
    (Inv (at1 0x05 0x20 [] 0x0309) ∧ after (at1 0x05 0x20 [] 0x0309) (fun t => t.status.state) = some .faulted) ∧
    (Inv { stopped with rst := true } ∧
      after { stopped with rst := true } (fun t => (t.dmem, t.status.state)) = some ([], .run)) :=
  ⟨⟨inv_at1 _ _ _ _ rfl, by decide⟩, ⟨inv_at1 _ _ _ _ rfl, by decide⟩, ⟨inv_at1 _ _ _ _ rfl, by decide⟩,
    ⟨inv_at1 _ _ _ _ rfl, by decide⟩, ⟨⟨inv_stopped.data, inv_stopped.prog, inv_stopped.status, inv_stopped.wait⟩,
      by decide⟩⟩

/-- A run of one step. -/
theorem run_one {s t : State} (h : step s = .next t) : core.run 1 s = .next t := by
  rw [run_succ_of_step h 0, run_zero]

/-- Runs that end at a HLT, at an illegal word and at a DIV by zero. -/
theorem witness_EndedRunStandsAtItsCause :
    (Inv (at1 0x00 0x40 [] 0x0905) ∧ ∃ t, core.run 1 (at1 0x00 0x40 [] 0x0905) = .next t ∧
      runEnd t = some (.halted 0x05 [])) ∧
    (Inv (at1 0x07 0x12 [] 0x1234) ∧ ∃ t, core.run 1 (at1 0x07 0x12 [] 0x1234) = .next t ∧
      runEnd t = some (.faulted .illegalOpcode)) ∧
    (Inv (at1 0x05 0x20 [] 0x0309) ∧ ∃ t, core.run 1 (at1 0x05 0x20 [] 0x0309) = .next t ∧
      runEnd t = some (.faulted .divByZero)) :=
  ⟨⟨inv_at1 _ _ _ _ rfl, haltWith (at1 0x00 0x40 [] 0x0905) 0x05, run_one (step_of_after (by decide)), rfl⟩,
    ⟨inv_at1 _ _ _ _ rfl, raiseFault (at1 0x07 0x12 [] 0x1234) .illegalOpcode, run_one (step_of_after (by decide)), rfl⟩,
    inv_at1 _ _ _ _ rfl, raiseFault (at1 0x05 0x20 [] 0x0309) .divByZero, run_one (step_of_after (by decide)), rfl⟩

/-- A waiting INP meets the invariant, with the request pending. -/
theorem witness_PendingRequestShowsOnInReq : Inv { atInp [] with inpPending := true } ∧
    { atInp [] with inpPending := true }.rst = false ∧ { atInp [] with inpPending := true }.inpPending = true :=
  ⟨⟨by decide, by decide, rfl, fun _ => ⟨rfl, 0x03, by decide⟩⟩, rfl, rfl⟩

/-- An INP that asks, with `rst` low and high before the clock, a state that asks nothing, and an INP that has its
answer already. -/
theorem witness_HostAnswersOnPins : IsNextSlot 0x40 0x41 ∧ (atInp []).rst = false ∧
    fetched { atInp [] with rst := true } = .insn (.inp 0x03) ∧ (atInp []).status.state = .run ∧
    fetched (atInp []) = .insn (.inp 0x03) ∧ (atInp []).answers = [] ∧
    portInReq { State.reset with rst := false } = false ∧ portInReq (atInp [.value 0x00]) = true ∧
    (atInp [.value 0x00]).answers ≠ [] := by
  refine ⟨rfl, ?_⟩
  decide

theorem witness_ResetAbandonsWaitingInp : { atInp [] with inpPending := true }.inpPending = true := by decide

/-- A state with `rst` high and the given word at pc. -/
def heldAt (pc : Byte) (w : Word) : State := { at1 0x07 pc [] w with rst := true }

/-- States with `rst` high at a legal word and at an illegal one, and a state that is not in RUN. -/
theorem witness_ClockFollowsResetPin :
    ((heldAt 0x00 0x0505).rst = true ∧ (heldAt 0x00 0x0505).status.state = .run ∧
      decode (cellRead (heldAt 0x00 0x0505).prog (0x00 : Byte).toNat) = .insn (.ldk 0x05)) ∧
    ((heldAt 0x12 0x1100).rst = true ∧ (heldAt 0x12 0x1100).status.state = .run ∧
      0x11 ≤ (cellRead (heldAt 0x12 0x1100).prog (0x12 : Byte).toNat).toNat / 256) ∧
    { stopped with rst := true }.status.state ≠ .run := by
  decide

/-- An image of 256 words, the bound, and the word of its last slot; and one word more. -/
theorem witness_HostLoadsUnderReset : { State.reset with rst := true }.rst = true ∧
    (List.replicate 256 (0x0501 : Word)).length ≤ 256 ∧ (List.replicate 256 (0x0501 : Word))[255]? = some 0x0501 ∧
    256 < (List.replicate 257 (0x0501 : Word)).length := by
  rw [List.length_replicate, List.length_replicate, List.getElem?_replicate]
  decide

/-- The three states of `ExitStatusByEnd`, the halt code at its bound. -/
theorem witness_ExitStatusByEnd : State.reset.status.state = .run ∧ stopped.status.state = .faulted ∧
    (haltWith State.reset 0x7F).status.state = .halted ∧ (haltWith State.reset 0x7F).status.haltCode.toNat ≤ 127 := by
  decide

/-- No further instruction is stored once the last of the 256 slots is taken, here of one left. -/
theorem test_asm_cap : assembleLines 1 [['l', 'd', 'k', ' ', '5'], ['f', 'o', 'o']] = .program [.ldk 0x05] := by decide

/-- 256 lines `ldk 1` assemble to 256 instructions. -/
theorem witness_AssemblerStopsAtCap : ∀ n, assembleLines n (List.replicate n ['l', 'd', 'k', ' ', '1']) =
    .program (List.replicate n (.ldk 0x01)) := by
  have h : assembleLine ['l', 'd', 'k', ' ', '1'] = .ok (some (.ldk 0x01)) := by rfl
  intro n
  induction n with
  | zero => rfl
  | succ n ih => simp [List.replicate_succ, assembleLines, h, ih, AsmResult.cons]

theorem witness_ProgramImageSlots : [Instr.ldk 0x01].length ≤ 256 ∧ [Instr.ldk 0x01][0]? = some (.ldk 0x01) := by decide

/-- A token with a number, at the upper bound of the range and beyond it, and one without. -/
theorem witness_OperandLiteralTruncates :
    parseLiteral ['2', '1', '4', '7', '4', '8', '3', '6', '4', '7'] = some 2147483647 ∧
    parseLiteral ['2', '1', '4', '7', '4', '8', '3', '6', '4', '8'] = some 2147483648 ∧ parseLiteral ['a'] = none := by
  decide

end Sys2Proof.Tests
end

section
/-!
PROOF. What a step can do to the status register (10_state.md R31,
40_execution_cycle.md R100), and the obligation O29 that follows from it.
-/

namespace Sys2Proof.Machine

/-- An INP stays in RUN, also while it waits (43_io_halt.md R160). -/
theorem execInp_status {a : Byte} {s t : State} (h : execInp a s = .next t) : t.status = s.status := by
  rcases execInp_cases a s with ⟨_, he⟩ | ⟨v, rest, _, he⟩ | ⟨rest, _, he⟩ <;>
  · cases he.symm.trans h
    rfl

/-- Of the 17 instructions only HLT and a DIV by a zero cell touch the status register. -/
theorem exec_status_cases {i : Instr} {s t : State} (h : exec i s = .next t) :
    t.status = s.status ∨
    (∃ k, i = .hlt k ∧ t = haltWith s k) ∨
    (∃ a, i = .div a ∧ memRead s a = 0x00 ∧ t = raiseFault s .divByZero) := by
  have kept {u : State} (he : exec i s = .next u) (hu : u.status = s.status) : t.status = s.status := by
    cases he.symm.trans h
    exact hu
  rcases exec_cases i s with ⟨_, he⟩ | ⟨a, hi, hz, he⟩ | ⟨_, _, he⟩ | ⟨_, _, he⟩ | ⟨_, _, he⟩ | ⟨k, hi, he⟩ | he | he
  · exact .inl (kept he rfl)
  · cases he.symm.trans h
    exact .inr (.inr ⟨a, hi, hz, rfl⟩)
  · exact .inl (kept he rfl)
  · exact .inl (execInp_status (he.symm.trans h))
  · exact .inl (kept he rfl)
  · cases he.symm.trans h
    exact .inr (.inl ⟨k, hi, rfl⟩)
  · exact .inl (kept he rfl)
  · exact .inl (kept he rfl)

/-- The same for a whole step: reset, HLT and the two faults are all that touch the status register
(10_state.md R31). -/
theorem step_status_cases {s t : State} (h : step s = .next t) :
    t.status = s.status ∨
    (s.rst = true ∧ t = holdReset s) ∨
    (Running s ∧ ∃ k, fetched s = .insn (.hlt k) ∧ t = haltWith s k) ∨
    (Running s ∧ (∃ o, fetched s = .illegal o) ∧ t = raiseFault s .illegalOpcode) ∨
    (Running s ∧ (∃ a, fetched s = .insn (.div a) ∧ memRead s a = 0x00) ∧ t = raiseFault s .divByZero) := by
  rcases step_cases s with ⟨hr, he⟩ | ⟨_, _, he⟩ | ⟨hr, hs, o, hf, he⟩ | ⟨hr, hs, i, hf, he⟩ <;> rw [he] at h
  · cases h
    exact .inr (.inl ⟨hr, rfl⟩)
  · cases h
    exact .inl rfl
  · cases h
    exact .inr (.inr (.inr (.inl ⟨⟨hr, hs⟩, ⟨o, hf⟩, rfl⟩)))
  · rcases exec_status_cases h with hk | ⟨k, rfl, ht⟩ | ⟨a, rfl, hz, ht⟩
    · exact .inl hk
    · exact .inr (.inr (.inl ⟨⟨hr, hs⟩, k, hf, ht⟩))
    · exact .inr (.inr (.inr (.inr ⟨⟨hr, hs⟩, ⟨a, hf, hz⟩, ht⟩)))

/-- HALTED and FAULTED absorb: with `rst` low they have no step (40_execution_cycle.md R100, log entry 3). -/
theorem step_of_stopped {s : State} (hr : s.rst = false) (hs : s.status.state ≠ .run) : step s = .next s := by
  rcases step_cases s with ⟨hr', _⟩ | ⟨_, _, he⟩ | ⟨_, hs', _⟩ | ⟨_, hs', _⟩
  · simp [hr] at hr'
  · exact he
  · exact absurd hs' hs
  · exact absurd hs' hs

/-- Settles O29: the causes of a changed status register are `step_status_cases`, and `step_of_stopped` says
that the stopped states absorb. -/
theorem stateChangesOnlyByHltFaultReset : Obligations.StateChangesOnlyByHltFaultReset := by
  unfold Obligations.StateChangesOnlyByHltFaultReset
  constructor
  · intro s t h hne
    rcases step_status_cases h with hk | ⟨hr, rfl⟩ | ⟨hrun, k, hf, rfl⟩ | ⟨hrun, _, rfl⟩ | ⟨hrun, _, rfl⟩
    · exact absurd (congrArg Status.state hk) hne
    · exact .inl ⟨hr, rfl⟩
    · exact .inr (.inl ⟨hrun, rfl, k, hf⟩)
    · exact .inr (.inr ⟨hrun, rfl, rfl⟩)
    · exact .inr (.inr ⟨hrun, rfl, rfl⟩)
  · intro s t hr hs h
    cases (step_of_stopped hr hs).symm.trans h
    rfl

end Sys2Proof.Machine
end

section
/-!
PROOF. The program store is read-only while reset is released (20_memory.md R59): no instruction and no step
writes it, the host's two loads are refused, and the obligation O27 that follows.
-/

namespace Sys2Proof.Machine

/-- An INP writes the data space only, whatever the host answers (20_memory.md R50). -/
theorem execInp_prog {a : Byte} {s t : State} (h : execInp a s = .next t) : t.prog = s.prog := by
  rcases execInp_cases a s with ⟨_, he⟩ | ⟨v, rest, _, he⟩ | ⟨rest, _, he⟩ <;>
  · cases he.symm.trans h
    simp

/-- "No instruction writes the program store" (20_memory.md R59). -/
theorem exec_prog {i : Instr} {s t : State} (h : exec i s = .next t) : t.prog = s.prog := by
  have kept {u : State} (he : exec i s = .next u) (hu : u.prog = s.prog) : t.prog = s.prog := by
    cases he.symm.trans h
    exact hu
  rcases exec_cases i s with ⟨v, he⟩ | ⟨_, _, _, he⟩ | ⟨a, _, he⟩ | ⟨_, _, he⟩ | ⟨a, _, he⟩ | ⟨k, _, he⟩ | he | he
  · exact kept he (by simp)
  · exact kept he (raiseFault_prog s _)
  · exact kept he (by simp)
  · exact execInp_prog (he.symm.trans h)
  · exact kept he (by simp)
  · exact kept he (haltWith_prog s k)
  · exact kept he (redirect_prog s _)
  · exact kept he (advance_prog s)

/-- The same for a whole step, with reset held too (70_reset_and_hazards.md R231). -/
theorem step_prog {s t : State} (h : step s = .next t) : t.prog = s.prog := by
  rcases step_cases s with ⟨_, he⟩ | ⟨_, _, he⟩ | ⟨_, _, _, _, he⟩ | ⟨_, _, i, _, he⟩ <;> rw [he] at h
  · cases h
    exact holdReset_prog s
  · cases h
    rfl
  · cases h
    exact raiseFault_prog s _
  · exact exec_prog h

/-- With reset released the host may not write a slot (60_exceptions.md R214). -/
theorem hostLoad_of_rst_low {s : State} (hr : s.rst = false) (slot : Byte) (w : Word) :
    hostLoad slot w s = .refused .hostOutsideInterface := by
  simp [hostLoad, hr]

/-- Nor may it load an image then, whether or not the image fits (60_exceptions.md R214). -/
theorem hostLoadImage_of_rst_low {s : State} (hr : s.rst = false) (ws : List Word) :
    hostLoadImage ws s = .refused .hostOutsideInterface := by
  simp [hostLoadImage, hr]

/-- Settles O27: `step_prog` is the clause on steps, and the two loads are refused. -/
theorem programStoreReadOnly : Obligations.ProgramStoreReadOnly := by
  unfold Obligations.ProgramStoreReadOnly
  refine ⟨fun s t h => step_prog h, fun s t hr => ⟨fun slot w h => ?_, fun ws h => ?_⟩⟩
  · cases (hostLoad_of_rst_low hr slot w).symm.trans h
  · cases (hostLoadImage_of_rst_low hr ws).symm.trans h

end Sys2Proof.Machine
end

section
/-!
PROOF. The opcode map's two directions are inverse (30_encoding.md R73), so encoder and decoder are inverse
(30_encoding.md R77), and the obligation O6 that says so.
-/

namespace Sys2Proof

/-- The map answers an instruction for its own opcode number and operand (30_encoding.md R73). -/
theorem instrOfOpcode_opcodeOf (i : Instr) : instrOfOpcode (opcodeOf i).toNat (operandOf i) = some i := by
  cases i <;> rfl

/-- Nothing else leads to an instruction: the map read backwards gives the number and the operand back. -/
theorem opcode_operand_of_instrOfOpcode {n : Nat} {imm : Byte} {i : Instr} (h : instrOfOpcode n imm = some i) :
    (opcodeOf i).toNat = n ∧ operandOf i = imm := by
  unfold instrOfOpcode at h
  split at h <;> cases h <;> exact ⟨rfl, rfl⟩

/-- Every number up to 0x10 has an entry (30_encoding.md R73, R75). -/
theorem instrOfOpcode_some {n : Nat} (h : n ≤ 16) (imm : Byte) : ∃ i, instrOfOpcode n imm = some i := by
  interval_cases n <;> exact ⟨_, rfl⟩

/-- The decoder answers an instruction exactly when the map does, on the word's two fields (30_encoding.md R76). -/
theorem decode_eq_insn_iff {w : Word} {i : Instr} :
    decode w = .insn i ↔ instrOfOpcode (opcField w).toNat (immField w) = some i := by
  unfold decode
  cases instrOfOpcode (opcField w).toNat (immField w) <;> simp

/-- `decode(enc(m, v)) = Insn(m, v)` (30_encoding.md R77). -/
theorem decode_encode (i : Instr) : decode (encode i) = .insn i := by
  rw [decode_eq_insn_iff, encode, opcField_joinFields, immField_joinFields]
  exact instrOfOpcode_opcodeOf i

/-- `enc(decode(w)) = w` wherever the decoder answers an instruction (30_encoding.md R77). -/
theorem encode_of_decode {w : Word} {i : Instr} (h : decode w = .insn i) : encode i = w := by
  obtain ⟨hopc, himm⟩ := opcode_operand_of_instrOfOpcode (decode_eq_insn_iff.mp h)
  rw [encode, BitVec.eq_of_toNat_eq hopc, himm, joinFields_fields]

/-- A legal word decodes to an instruction (30_encoding.md R75, R76). -/
theorem decode_of_legalWord {w : Word} (h : legalWord w = true) : ∃ i, decode w = .insn i := by
  have hopc : (opcField w).toNat ≤ 16 := by simpa [legalWord, opcField_toNat] using h
  obtain ⟨i, hi⟩ := instrOfOpcode_some hopc (immField w)
  exact ⟨i, decode_eq_insn_iff.mpr hi⟩

/-- Settles O6: `decode_encode` on the instructions, `decode_of_legalWord` and `encode_of_decode` on the words. -/
theorem encodeDecodeInverse : Obligations.EncodeDecodeInverse := by
  unfold Obligations.EncodeDecodeInverse
  refine ⟨fun i => ⟨rfl, decode_encode i⟩, fun w hw => ?_⟩
  obtain ⟨i, hi⟩ := decode_of_legalWord hw
  exact ⟨i, hi, encode_of_decode hi⟩

end Sys2Proof
end

section
/-!
PROOF. A running block executes what it fetched (40_execution_cycle.md R104), and the obligation O8 on the zero
word, which is `ADD 0` (30_encoding.md R74).
-/

namespace Sys2Proof.Machine

/-- In RUN with reset released, a fetched instruction is the step (40_execution_cycle.md R102, R104). -/
theorem step_of_fetched {s : State} {i : Instr} (hrun : Running s) (hf : fetched s = .insn i) :
    step s = exec i s := by
  obtain ⟨hr, hs⟩ := hrun
  simp [step, hr, hs, hf]

/-- The zero word is `ADD 0` (30_encoding.md R74). -/
theorem decode_zero : decode 0x0000 = .insn (.add 0x00) := decode_encode (.add 0x00)

/-- Settles O8: the step is the ADD of `decode_zero`, so it leaves what `writeResult` leaves. -/
theorem zeroWordAddsCellZero : Obligations.ZeroWordAddsCellZero := by
  unfold Obligations.ZeroWordAddsCellZero
  refine ⟨decode_zero, fun s hrun hw => ?_⟩
  have hf : fetched s = .insn (.add 0x00) := (congrArg decode hw).trans decode_zero
  have hstep : step s = .next (writeResult s (sval s.acc + sval (memRead s 0x00))) := step_of_fetched hrun hf
  rw [writeResult_eq] at hstep
  exact ⟨_, _, hstep, toNat_trunc8 _, toNat_trunc8_uval_add_one s.pc⟩

end Sys2Proof.Machine
end

section
/-!
PROOF. A word with no entry in the opcode map decodes to its illegal opcode (30_encoding.md R75, R76), its step
raises ILLEGAL_OPCODE (40_execution_cycle.md R103), and the obligation O4 that follows.
-/

namespace Sys2Proof.Machine

/-- Above 0x10 the decoder answers the opcode field as illegal (30_encoding.md R76). -/
theorem decode_of_opcode_gt {w : Word} (h : 0x11 ≤ w.toNat / 256) : decode w = .illegal (opcField w) := by
  have hopc : 16 < (opcField w).toNat := by rwa [opcField_toNat]
  rw [decode, instrOfOpcode_none hopc]

/-- In RUN with reset released, an illegal word raises ILLEGAL_OPCODE (40_execution_cycle.md R103). -/
theorem step_of_illegal {s : State} {o : Byte} (hrun : Running s) (hf : fetched s = .illegal o) :
    step s = .next (raiseFault s .illegalOpcode) := by
  obtain ⟨hr, hs⟩ := hrun
  simp [step, hr, hs, hf]

/-- Settles O4: the fetched word is illegal by `decode_of_opcode_gt`, and `raiseFault` writes the status register
only. -/
theorem illegalWordFaults : Obligations.IllegalWordFaults := by
  unfold Obligations.IllegalWordFaults
  intro s hrun hopc
  have hf : fetched s = .illegal (opcField (fetch s)) := decode_of_opcode_gt hopc
  exact step_of_illegal hrun hf

end Sys2Proof.Machine
end

section
/-!
PROOF. The four arithmetic instructions write the exact signed result modulo 256 and advance (41_arithmetic.md
R120), and the obligations O9 and O10 that follow.
-/

namespace Sys2Proof.Machine

/-- The word an instruction encodes to is its opcode number and its operand (30_encoding.md R70, R77). -/
theorem encodedAs_opcodeOf (i : Instr) : EncodedAs i (opcodeOf i).toNat (operandOf i) :=
  toNat_joinFields (opcodeOf i) (operandOf i)

/-- The slot an advance leaves in pc is the only next slot (40_execution_cycle.md R105). -/
theorem trunc8_succ_of_isNextSlot {pc p : Byte} (hp : IsNextSlot pc p) : trunc8 ((uval pc : Int) + 1) = p :=
  BitVec.eq_of_toNat_eq ((toNat_trunc8_uval_add_one pc).trans hp.symm)

/-- `writeResult_eq` with the slot pc advances to given by its number. -/
theorem writeResult_of_isNextSlot {s : State} {p : Byte} (hp : IsNextSlot s.pc p) (r : Int) :
    writeResult s r = { s with acc := trunc8 r, pc := p } := by
  rw [writeResult_eq, trunc8_succ_of_isNextSlot hp]

/-- The low 8 bits of a product do not depend on the reading of its factors (41_arithmetic.md R123). -/
theorem toNat_trunc8_sval_mul (v w : Byte) : (trunc8 (sval v * sval w)).toNat = (v.toNat * w.toNat) % 256 := by
  have hmul : trunc8 (sval v * sval w) = v * w :=
    calc trunc8 (sval v * sval w)
      _ = trunc8 (sval v) * trunc8 (sval w) := BitVec.ofInt_mul _ _
      _ = v * w := by rw [trunc8_sval, trunc8_sval]
  rw [hmul, BitVec.toNat_mul]

/-- -128 / -1 = 128, which does not fit, so 0x80 is written (41_arithmetic.md R127). -/
theorem trunc8_tdiv_overflow : trunc8 (tdiv (sval 0x80) (sval 0xFF)) = 0x80 := by decide

/-- Settles O9: each of the three writes its exact result by `writeResult_of_isNextSlot`, and
`toNat_trunc8_sval_mul` is the product's other reading. -/
theorem addSubMulWrap : Obligations.AddSubMulWrap := by
  unfold Obligations.AddSubMulWrap
  rintro s a _ p rfl hp
  have written (r : Int) : (.next (writeResult s r) : Host.Outcome State Fault Refusal) =
      .next { s with acc := trunc8 r, pc := p } := congrArg _ (writeResult_of_isNextSlot hp r)
  exact ⟨⟨encodedAs_opcodeOf (.add a), _, written (sval s.acc + sval (memRead s a)), toNat_trunc8 _⟩,
    ⟨encodedAs_opcodeOf (.sub a), _, written (sval s.acc - sval (memRead s a)), toNat_trunc8 _⟩,
    ⟨encodedAs_opcodeOf (.mul a), _, written (sval s.acc * sval (memRead s a)), toNat_trunc8 _,
      toNat_trunc8_sval_mul s.acc (memRead s a)⟩⟩

/-- Settles O10: `execDiv_cases` parts the two divisors; the quotient is the library's by `tdiv_eq`. -/
theorem divTruncatesOrFaults : Obligations.DivTruncatesOrFaults := by
  unfold Obligations.DivTruncatesOrFaults
  rintro s a _ p rfl hp
  refine ⟨encodedAs_opcodeOf (.div a), ?_⟩
  rcases execDiv_cases a s with ⟨hzero, hfault⟩ | ⟨hne, hwrite⟩
  · exact ⟨fun _ => hfault, fun hne => absurd hzero hne⟩
  · rw [writeResult_of_isNextSlot hp] at hwrite
    refine ⟨fun hzero => absurd hzero hne, fun _ => ⟨_, hwrite, ?quotient, ?overflow⟩⟩
    case quotient => rw [toNat_trunc8, tdiv_eq]; rfl
    case overflow =>
      intro hacc hm
      rw [hacc, show memRead s a = 0xFF from hm, trunc8_tdiv_overflow]

end Sys2Proof.Machine
end

section
/-!
PROOF. The three transfer instructions (42_transfer.md R140, R141, R142): each moves one value and advances to the
slot the statement names, and the obligations O11 and O12 that follow.
-/

namespace Sys2Proof.Machine

/-- Advance with the slot it goes to given by its number (40_execution_cycle.md R105). -/
theorem advance_of_isNextSlot {s : State} {p : Byte} (hp : IsNextSlot s.pc p) : advance s = { s with pc := p } := by
  rw [advance, trunc8_succ_of_isNextSlot hp]

/-- LDA: the cell into acc (42_transfer.md R140). -/
theorem exec_lda_of_isNextSlot {s : State} {p : Byte} (hp : IsNextSlot s.pc p) (a : Byte) :
    exec (.lda a) s = .next { s with acc := memRead s a, pc := p } :=
  congrArg Host.Outcome.next (advance_of_isNextSlot (s := setAcc s (memRead s a)) hp)

/-- LDK: the operand's own pattern into acc (42_transfer.md R141). -/
theorem exec_ldk_of_isNextSlot {s : State} {p : Byte} (hp : IsNextSlot s.pc p) (k : Byte) :
    exec (.ldk k) s = .next { s with acc := k, pc := p } :=
  congrArg Host.Outcome.next (advance_of_isNextSlot (s := setAcc s k) hp)

/-- STA: acc into the cell, by one write to the data memory (42_transfer.md R142). -/
theorem exec_sta_of_isNextSlot {s : State} {p : Byte} (hp : IsNextSlot s.pc p) (a : Byte) :
    exec (.sta a) s = .next { s with dmem := cellWrite s.dmem (addrOf a) s.acc, pc := p } :=
  congrArg Host.Outcome.next (advance_of_isNextSlot (s := memWrite s a s.acc) hp)

/-- Settles O12: the one write is `exec_sta_of_isNextSlot`, and `cellRead_write_same` and `cellRead_write_other`
say what it leaves in the cell and in every other. -/
theorem staStoresOneCell : Obligations.StaStoresOneCell := by
  unfold Obligations.StaStoresOneCell
  intro s a p hp
  exact ⟨encodedAs_opcodeOf (.sta a), _, exec_sta_of_isNextSlot hp a, cellRead_write_same s.dmem (addrOf a) s.acc,
    fun _ hn => cellRead_write_other s.dmem s.acc hn⟩

/-- Settles O11: the two loads are `exec_lda_of_isNextSlot` and `exec_ldk_of_isNextSlot`. -/
theorem loadsWriteAccumulator : Obligations.LoadsWriteAccumulator := by
  unfold Obligations.LoadsWriteAccumulator
  intro s v p hp
  exact ⟨⟨encodedAs_opcodeOf (.lda v), exec_lda_of_isNextSlot hp v⟩,
    ⟨encodedAs_opcodeOf (.ldk v), exec_ldk_of_isNextSlot hp v⟩⟩

end Sys2Proof.Machine
end

section
/-!
PROOF. OUT sends the data cell and HLT stops the block (43_io_halt.md R164, R166): what each leaves, what the outputs
show, and the obligations O15 and O16 that follow.
-/

namespace Sys2Proof.Machine

/-- OUT: one event with the cell's value, after those the host has received (43_io_halt.md R164). -/
theorem exec_out_of_isNextSlot {s : State} {p : Byte} (hp : IsNextSlot s.pc p) (a : Byte) :
    exec (.out a) s = .next { s with outs := s.outs ++ [memRead s a], pc := p } :=
  congrArg Host.Outcome.next (advance_of_isNextSlot (s := emitOut s (memRead s a)) hp)

/-- HLT writes the status register only, with the operand's own pattern as the code (43_io_halt.md R166). -/
theorem exec_hlt (k : Byte) (s : State) : exec (.hlt k) s = .next (haltWith s k) := rfl

/-- A running block drives its output port with the cell in the clock of the OUT (10_state.md R41). -/
theorem portOut_of_fetched_out {s : State} {a : Byte} (hrun : Running s) (hf : fetched s = .insn (.out a)) :
    portOut s = some (memRead s a) := by
  obtain ⟨hr, hs⟩ := hrun
  simp [portOut, executing, hr, hs, hf]

/-- A halted block has no step until reset (10_state.md R31). -/
theorem step_haltWith {s : State} (hr : s.rst = false) (k : Byte) : step (haltWith s k) = .next (haltWith s k) :=
  step_of_stopped hr (by simp)

/-- Settles O15: the event and the advance are `exec_out_of_isNextSlot`, the port is `portOut_of_fetched_out`. -/
theorem outEmitsCell : Obligations.OutEmitsCell := by
  unfold Obligations.OutEmitsCell
  intro s a p hp
  refine ⟨encodedAs_opcodeOf (.out a), exec_out_of_isNextSlot hp a, fun hrun hf => ?_⟩
  have hport : portOut s = some (memRead s a) := portOut_of_fetched_out hrun hf
  exact ⟨congrArg Option.isSome hport, hport⟩

/-- Settles O16: the only outcome is `haltWith`, which the outputs show and, by `step_haltWith`, no step changes. -/
theorem hltRecordsOperand : Obligations.HltRecordsOperand := by
  unfold Obligations.HltRecordsOperand
  refine fun s k => ⟨encodedAs_opcodeOf (.hlt k), exec_hlt k s, fun t ht => ?_⟩
  cases (exec_hlt k s).symm.trans ht
  refine ⟨rfl, rfl, fun hr u hu => ?_⟩
  cases (step_haltWith hr k).symm.trans hu
  rfl

end Sys2Proof.Machine
end

section
/-!
PROOF. The jumps: JMP redirects, and a conditional jump compares the signed accumulator with zero, which can be read
off bit 7 and the zero pattern (44_control.md R180 to R187); the obligations O17 and O18 that follow.
-/

namespace Sys2Proof.Machine

/-! ### The conditions as signed comparisons (44_control.md R180, the column `cond(s)`) -/

@[simp] theorem condEZ_iff {v : Byte} : condEZ v = true ↔ sval v = 0 := decide_eq_true_iff
@[simp] theorem condNE_iff {v : Byte} : condNE v = true ↔ sval v ≠ 0 := decide_eq_true_iff
@[simp] theorem condLZ_iff {v : Byte} : condLZ v = true ↔ sval v < 0 := decide_eq_true_iff
@[simp] theorem condLE_iff {v : Byte} : condLE v = true ↔ sval v ≤ 0 := decide_eq_true_iff
@[simp] theorem condGZ_iff {v : Byte} : condGZ v = true ↔ sval v > 0 := decide_eq_true_iff
@[simp] theorem condGE_iff {v : Byte} : condGE v = true ↔ sval v ≥ 0 := decide_eq_true_iff

/-! ### The comparisons on the bits (44_control.md R180, the column on the bits of `acc`) -/

theorem sval_ne_zero_iff {v : Byte} : sval v ≠ 0 ↔ v ≠ 0x00 := sval_eq_zero.not

/-- Bit 7 is the sign (44_control.md R180, R184). -/
theorem sval_neg_iff_bit7 {v : Byte} : sval v < 0 ↔ v.getLsbD 7 = true := by
  rw [sval_neg_iff, BitVec.msb_eq_getLsbD_last]

theorem sval_nonneg_iff_bit7 {v : Byte} : sval v ≥ 0 ↔ v.getLsbD 7 = false := by
  rw [ge_iff_le, ← not_lt, sval_neg_iff_bit7, Bool.not_eq_true]

theorem sval_nonpos_iff_bits {v : Byte} : sval v ≤ 0 ↔ v.getLsbD 7 = true ∨ v = 0x00 := by
  rw [le_iff_lt_or_eq, sval_neg_iff_bit7, sval_eq_zero]

theorem sval_pos_iff_bits {v : Byte} : sval v > 0 ↔ v.getLsbD 7 = false ∧ v ≠ 0x00 := by
  rw [gt_iff_lt, ← not_le, sval_nonpos_iff_bits, not_or, Bool.not_eq_true]

/-! ### The jumps -/

/-- JMP: pc to the operand's own pattern, with no increment (44_control.md R181). -/
theorem exec_jmp (t : Byte) (s : State) : exec (.jmp t) s = .next { s with pc := t } := rfl

/-- A conditional jump, with what its test means and the slot it falls through to given: pc is written and nothing
else (44_control.md R180, R189). -/
theorem exec_jumpIf_of_isNextSlot {i : Instr} {s : State} {taken : Bool} {t p : Byte}
    (he : exec i s = .next (jumpIf taken t s)) (hp : IsNextSlot s.pc p) {c : Prop} [Decidable c]
    (hc : taken = true ↔ c) : exec i s = .next { s with pc := if c then t else p } := by
  rw [he]
  rcases jumpIf_cases taken t s with ⟨ht, hj⟩ | ⟨ht, hj⟩
  · rw [hj, if_pos (hc.mp ht), redirect]
  · have hn : ¬ c := fun h => by simp [hc.mpr h] at ht
    rw [hj, if_neg hn, advance_of_isNextSlot hp]

/-- Settles O18: each jump's condition and its signed comparison, both read on the bits of acc by the `sval_` lemmas
above. -/
theorem jumpsOnAccumulatorBits : Obligations.JumpsOnAccumulatorBits := by
  unfold Obligations.JumpsOnAccumulatorBits
  intro s t p hp
  exact ⟨exec_jumpIf_of_isNextSlot rfl hp (condEZ_iff.trans sval_eq_zero),
    exec_jumpIf_of_isNextSlot rfl hp (condNE_iff.trans sval_ne_zero_iff),
    exec_jumpIf_of_isNextSlot rfl hp (condLZ_iff.trans sval_neg_iff_bit7),
    exec_jumpIf_of_isNextSlot rfl hp (condLE_iff.trans sval_nonpos_iff_bits),
    exec_jumpIf_of_isNextSlot rfl hp (condGZ_iff.trans sval_pos_iff_bits),
    exec_jumpIf_of_isNextSlot rfl hp (condGE_iff.trans sval_nonneg_iff_bit7),
    sval_eq_zero, sval_ne_zero_iff, sval_neg_iff_bit7, sval_nonpos_iff_bits, sval_pos_iff_bits, sval_nonneg_iff_bit7⟩

/-- Settles O17: the words are `encodedAs_opcodeOf`, JMP is `exec_jmp`, and each conditional jump is
`exec_jumpIf_of_isNextSlot` on its signed comparison. -/
theorem jumpsCompareSignedAccumulator : Obligations.JumpsCompareSignedAccumulator := by
  unfold Obligations.JumpsCompareSignedAccumulator
  intro s t p hp
  exact ⟨⟨encodedAs_opcodeOf (.jmp t), exec_jmp t s⟩,
    ⟨encodedAs_opcodeOf (.jez t), exec_jumpIf_of_isNextSlot rfl hp condEZ_iff⟩,
    ⟨encodedAs_opcodeOf (.jne t), exec_jumpIf_of_isNextSlot rfl hp condNE_iff⟩,
    ⟨encodedAs_opcodeOf (.jlz t), exec_jumpIf_of_isNextSlot rfl hp condLZ_iff⟩,
    ⟨encodedAs_opcodeOf (.jle t), exec_jumpIf_of_isNextSlot rfl hp condLE_iff⟩,
    ⟨encodedAs_opcodeOf (.jgz t), exec_jumpIf_of_isNextSlot rfl hp condGZ_iff⟩,
    ⟨encodedAs_opcodeOf (.jge t), exec_jumpIf_of_isNextSlot rfl hp condGE_iff⟩⟩

end Sys2Proof.Machine
end

section
/-!
PROOF. The two faults are precise (60_exceptions.md R201, R203): which fetched word raises which, that the step
records the fault and nothing else, that FAULTED shows on the outputs and has no step, and the obligation O31.
-/

namespace Sys2Proof.Machine

/-- The word at pc is illegal: the cause of ILLEGAL_OPCODE (60_exceptions.md R201). -/
def FetchesIllegal (s : State) : Prop := ∃ o, fetched s = .illegal o

/-- The word at pc is a DIV whose cell holds 0x00: the cause of DIV_BY_ZERO (60_exceptions.md R201). -/
def DividesByZero (s : State) : Prop := ∃ a, fetched s = .insn (.div a) ∧ memRead s a = 0x00

/-- No step meets both causes: one word is fetched, and it is an instruction or it is not. -/
theorem not_dividesByZero_of_fetchesIllegal {s : State} (hi : FetchesIllegal s) : ¬ DividesByZero s := by
  rintro ⟨a, hdiv, _⟩
  obtain ⟨o, hill⟩ := hi
  cases hill.symm.trans hdiv

/-- In RUN with reset released, a DIV by a zero cell raises DIV_BY_ZERO (41_arithmetic.md R124, R126). -/
theorem step_of_dividesByZero {s : State} (hrun : Running s) (hz : DividesByZero s) :
    step s = .next (raiseFault s .divByZero) := by
  obtain ⟨a, hf, hzero⟩ := hz
  rw [step_of_fetched hrun hf]
  rcases execDiv_cases a s with ⟨_, he⟩ | ⟨hne, _⟩
  · exact he
  · exact absurd hzero hne

/-- A running step that ends FAULTED has met one of the two causes and raised its fault (60_exceptions.md R201,
R203). -/
theorem step_faulted_cases {s t : State} (hrun : Running s) (h : step s = .next t) (ht : t.status.state = .faulted) :
    (FetchesIllegal s ∧ t = raiseFault s .illegalOpcode) ∨ (DividesByZero s ∧ t = raiseFault s .divByZero) := by
  obtain ⟨hr, hs⟩ := hrun
  rcases step_status_cases h with hk | ⟨hrst, _⟩ | ⟨_, _, _, rfl⟩ | ⟨_, hi, he⟩ | ⟨_, hz, he⟩
  · simp [hk, hs] at ht
  · simp [hr] at hrst
  · simp at ht
  · exact .inl ⟨hi, he⟩
  · exact .inr ⟨hz, he⟩

/-- A running step ends FAULTED exactly when it meets one of the two causes (60_exceptions.md R201, R202). -/
theorem step_faulted_iff {s t : State} (hrun : Running s) (h : step s = .next t) :
    t.status.state = .faulted ↔ FetchesIllegal s ∨ DividesByZero s := by
  constructor
  · intro ht
    exact (step_faulted_cases hrun h ht).imp And.left And.left
  · rintro (⟨o, hill⟩ | hz)
    · cases (step_of_illegal hrun hill).symm.trans h
      rfl
    · cases (step_of_dividesByZero hrun hz).symm.trans h
      rfl

/-- The cause a running step records tells which of the two was met (60_exceptions.md R201, R203). -/
theorem step_faulted_cause {s t : State} (hrun : Running s) (h : step s = .next t) (ht : t.status.state = .faulted) :
    ∃ c, t = raiseFault s c ∧ (c = .illegalOpcode ↔ FetchesIllegal s) ∧ (c = .divByZero ↔ DividesByZero s) := by
  rcases step_faulted_cases hrun h ht with ⟨hi, he⟩ | ⟨hz, he⟩
  · exact ⟨_, he, iff_of_true rfl hi, iff_of_false (by decide) (not_dividesByZero_of_fetchesIllegal hi)⟩
  · exact ⟨_, he, iff_of_false (by decide) fun hi => not_dividesByZero_of_fetchesIllegal hi hz, iff_of_true rfl hz⟩

/-- A faulted block has no step until reset (60_exceptions.md R207). -/
theorem step_raiseFault {s : State} (hr : s.rst = false) (c : FaultCause) :
    step (raiseFault s c) = .next (raiseFault s c) :=
  step_of_stopped hr (by simp)

/-- The codes 0x03 to 0xFF are never produced (60_exceptions.md R201). -/
theorem faultCauseCode_le (c : FaultCause) : (faultCauseCode c).toNat ≤ 0x02 := by
  cases c <;> decide

/-- Settles O31: when a step faults is `step_faulted_iff`, what it records is `step_faulted_cause`, and no step
follows by `step_raiseFault`. -/
theorem faultsExactlyAndPrecisely : Obligations.FaultsExactlyAndPrecisely := by
  unfold Obligations.FaultsExactlyAndPrecisely
  refine ⟨fun s t hrun h => ⟨step_faulted_iff hrun h, fun ht => ?_⟩, rfl, rfl, rfl, faultCauseCode_le⟩
  obtain ⟨c, rfl, hill, hzero⟩ := step_faulted_cause hrun h ht
  obtain ⟨hr, _⟩ := hrun
  refine ⟨c, rfl, hill, hzero, rfl, rfl, rfl, fun u hu => ?_⟩
  cases (step_raiseFault hr c).symm.trans hu
  rfl

end Sys2Proof.Machine
end

section
/-!
PROOF. Reset held (70_reset_and_hazards.md R230, R231, R233): the step and the clock under reset are `holdReset`, no
port is driven there, an answer given there has no step, and the obligations O2 and O42 that follow.
-/

namespace Sys2Proof.Machine

/-- Reset takes effect from any state (70_reset_and_hazards.md R230). -/
theorem step_of_rst_high {s : State} (hr : s.rst = true) : step s = .next (holdReset s) := if_pos hr

/-- With `rst` high no instruction executes (70_reset_and_hazards.md R230). -/
theorem executing_of_rst_high {s : State} (hr : s.rst = true) : executing s = false := by
  simp [executing, hr]

/-- `in_req` is low while `rst` is high (70_reset_and_hazards.md R230). -/
theorem portInReq_of_rst_high {s : State} (hr : s.rst = true) : portInReq s = false := by
  rw [portInReq, executing_of_rst_high hr, Bool.false_and]

/-- `out_valid` is low while `rst` is high (70_reset_and_hazards.md R230). -/
theorem portOut_of_rst_high {s : State} (hr : s.rst = true) : portOut s = none := by
  simp [portOut, executing_of_rst_high hr]

/-- When `rst` falls, slot 0 of the kept program store is fetched (70_reset_and_hazards.md R230, R231). -/
theorem fetch_holdReset (s : State) : fetch { holdReset s with rst := false } = cellRead s.prog 0 := rfl

/-- A clock with `rst` high and no answer on the pins holds the reset values (70_reset_and_hazards.md R230). -/
theorem clock_of_rst_high (d : Byte) (s : State) :
    clock { rst := true, inValid := false, inInvalid := false, inData := d } s =
      .next (holdReset { s with rst := true }) := rfl

/-- An answer with no request, on either pin or on both, is outside the interface (60_exceptions.md R214). -/
theorem clock_refused_of_no_request {p : Pins} {s : State} (hreq : portInReq { s with rst := p.rst } = false)
    (hans : p.inValid = true ∨ p.inInvalid = true) : clock p s = .refused .hostOutsideInterface := by
  unfold clock
  by_cases hboth : (p.inValid && p.inInvalid) = true
  · exact if_pos hboth
  · rw [if_neg hboth, if_pos (by simpa using hans)]
    simp [hreq]

/-- Settles O2: the step is `holdReset` by `step_of_rst_high`, which keeps `rst` high and so drives no port. -/
theorem resetHeldFromAnyState : Obligations.ResetHeldFromAnyState := by
  unfold Obligations.ResetHeldFromAnyState
  intro s hr
  have hr' : (holdReset s).rst = true := (holdReset_rst s).trans hr
  exact ⟨holdReset s, step_of_rst_high hr, hr', holdReset_acc s, holdReset_pc s, fun n => cellRead_nil n,
    holdReset_status s, holdReset_inpPending s, portInReq_of_rst_high hr', portOut_of_rst_high hr',
    holdReset_prog s, fetch_holdReset s⟩

/-- Settles O42: the clock is `clock_of_rst_high`, after which `in_req` is low, so that an answer under reset meets
no request and is refused by `clock_refused_of_no_request`. -/
theorem resetAbandonsWaitingInp : Obligations.ResetAbandonsWaitingInp := by
  unfold Obligations.ResetAbandonsWaitingInp
  intro s d _
  have hreq : portInReq (holdReset { s with rst := true }) = false := portInReq_of_rst_high rfl
  refine ⟨_, clock_of_rst_high d s, holdReset_inpPending _, hreq, holdReset_pc _, fun n => cellRead_nil n,
    fetch_holdReset _, fun v i u hans hclock => ?_⟩
  cases (clock_refused_of_no_request hreq hans).symm.trans hclock

end Sys2Proof.Machine
end

section
/-!
PROOF. The 17 meanings and the step as relations, one case a shape of effect, each equal to the model's function; so
every step has a next state (60_exceptions.md R200, R202), and the obligation O32.
-/

namespace Sys2Proof.Machine

/-- The value an instruction leaves in acc, for the six that write acc; none for a DIV by a zero cell (10_state.md
R21, 41_arithmetic.md R126). -/
def accResult (s : State) (i : Instr) : Option Byte :=
  match i with
  | .add a => some (trunc8 (sval s.acc + sval (memRead s a)))
  | .sub a => some (trunc8 (sval s.acc - sval (memRead s a)))
  | .mul a => some (trunc8 (sval s.acc * sval (memRead s a)))
  | .div a =>
    if memRead s a = 0x00 then none else some (trunc8 (tdiv (sval s.acc) (sval (memRead s a))))
  | .lda a => some (memRead s a)
  | .ldk k => some k
  | _ => none

/-- Whether a jump is taken, for the seven that are jumps (44_control.md R180, R181). -/
def jumpTaken (acc : Byte) (i : Instr) : Option Bool :=
  match i with
  | .jmp _ => some true
  | .jez _ => some (condEZ acc)
  | .jne _ => some (condNE acc)
  | .jlz _ => some (condLZ acc)
  | .jle _ => some (condLE acc)
  | .jgz _ => some (condGZ acc)
  | .jge _ => some (condGE acc)
  | _ => none

/-- The state an instruction leaves, by the shape of its effect (41_arithmetic.md to 44_control.md). -/
inductive InstrEffect (s : State) : Instr → State → Prop
  | result {i : Instr} {v : Byte} (hv : accResult s i = some v) : InstrEffect s i (advance (setAcc s v))
  | divByZero {a : Byte} (hz : memRead s a = 0x00) : InstrEffect s (.div a) (raiseFault s .divByZero)
  | store {a : Byte} : InstrEffect s (.sta a) (advance (memWrite s a s.acc))
  | wait {a : Byte} (hans : s.answers = []) : InstrEffect s (.inp a) (waitForAnswer s)
  | takeValue {a v : Byte} {rest : List Answer} (hans : s.answers = .value v :: rest) :
      InstrEffect s (.inp a) (advance (memWrite (takeAnswer s rest) a v))
  | takeInvalid {a : Byte} {rest : List Answer} (hans : s.answers = .invalid :: rest) :
      InstrEffect s (.inp a) (advance (memWrite (useDraw (takeAnswer s rest)) a (drawValue s)))
  | emit {a : Byte} : InstrEffect s (.out a) (advance (emitOut s (memRead s a)))
  | halt {k : Byte} : InstrEffect s (.hlt k) (haltWith s k)
  | taken {i : Instr} (hj : jumpTaken s.acc i = some true) : InstrEffect s i (redirect s (operandOf i))
  | notTaken {i : Instr} (hj : jumpTaken s.acc i = some false) : InstrEffect s i (advance s)

/-- An instruction that writes acc is the write of its result and an advance. -/
theorem exec_of_accResult {s : State} {i : Instr} {v : Byte} (hv : accResult s i = some v) :
    exec i s = .next (advance (setAcc s v)) := by
  cases i with
  | div a =>
    simp only [accResult] at hv
    split at hv
    · cases hv
    · next hne =>
      cases hv
      exact if_neg hne
  | _ => cases hv <;> rfl

/-- A jump is `jumpIf` on its condition. -/
theorem exec_of_jumpTaken {s : State} {i : Instr} {taken : Bool} (hj : jumpTaken s.acc i = some taken) :
    exec i s = .next (jumpIf taken (operandOf i) s) := by
  cases i <;> cases hj <;> rfl

theorem exec_of_instrEffect {s t : State} {i : Instr} (h : InstrEffect s i t) : exec i s = .next t := by
  cases h with
  | result hv => exact exec_of_accResult hv
  | divByZero hz => exact if_pos hz
  | store => rfl
  | wait hans => simp [exec, execInp, hans]
  | takeValue hans => simp [exec, execInp, hans]
  | takeInvalid hans => simp [exec, execInp, hans]
  | emit => rfl
  | halt => rfl
  | taken hj => exact exec_of_jumpTaken hj
  | notTaken hj => exact exec_of_jumpTaken hj

theorem exists_instrEffect (s : State) (i : Instr) : ∃ t, InstrEffect s i t := by
  have branch {taken : Bool} (hj : jumpTaken s.acc i = some taken) : ∃ t, InstrEffect s i t := by
    cases taken
    · exact ⟨_, .notTaken hj⟩
    · exact ⟨_, .taken hj⟩
  cases i with
  | add a => exact ⟨_, .result rfl⟩
  | sub a => exact ⟨_, .result rfl⟩
  | mul a => exact ⟨_, .result rfl⟩
  | div a =>
    by_cases hz : memRead s a = 0x00
    · exact ⟨_, .divByZero hz⟩
    · exact ⟨_, .result (if_neg hz)⟩
  | lda a => exact ⟨_, .result rfl⟩
  | ldk k => exact ⟨_, .result rfl⟩
  | sta a => exact ⟨_, .store⟩
  | inp a =>
    rcases execInp_cases a s with ⟨hans, _⟩ | ⟨_, _, hans, _⟩ | ⟨_, hans, _⟩
    · exact ⟨_, .wait hans⟩
    · exact ⟨_, .takeValue hans⟩
    · exact ⟨_, .takeInvalid hans⟩
  | out a => exact ⟨_, .emit⟩
  | hlt k => exact ⟨_, .halt⟩
  | jmp t => exact branch rfl
  | jez t => exact branch rfl
  | jne t => exact branch rfl
  | jlz t => exact branch rfl
  | jle t => exact branch rfl
  | jgz t => exact branch rfl
  | jge t => exact branch rfl

/-- `InstrEffect` is the dispatch of 40_execution_cycle.md R104. -/
theorem exec_eq_next_iff {s t : State} {i : Instr} : exec i s = .next t ↔ InstrEffect s i t := by
  refine ⟨fun h => ?_, exec_of_instrEffect⟩
  obtain ⟨u, hu⟩ := exists_instrEffect s i
  cases (exec_of_instrEffect hu).symm.trans h
  exact hu

/-- The state a step leaves (40_execution_cycle.md R100 to R104, 70_reset_and_hazards.md R230). -/
inductive StepEffect (s : State) : State → Prop
  | reset (hr : s.rst = true) : StepEffect s (holdReset s)
  | stopped (hr : s.rst = false) (hs : s.status.state ≠ .run) : StepEffect s s
  | illegal {o : Byte} (hrun : Running s) (hf : fetched s = .illegal o) : StepEffect s (raiseFault s .illegalOpcode)
  | instr {i : Instr} {t : State} (hrun : Running s) (hf : fetched s = .insn i) (he : InstrEffect s i t) :
      StepEffect s t

theorem step_of_stepEffect {s t : State} (h : StepEffect s t) : step s = .next t := by
  cases h with
  | reset hr => exact step_of_rst_high hr
  | stopped hr hs => exact step_of_stopped hr hs
  | illegal hrun hf => exact step_of_illegal hrun hf
  | instr hrun hf he => exact (step_of_fetched hrun hf).trans (exec_of_instrEffect he)

theorem exists_stepEffect (s : State) : ∃ t, StepEffect s t := by
  rcases step_cases s with ⟨hr, _⟩ | ⟨hr, hs, _⟩ | ⟨hr, hs, o, hf, _⟩ | ⟨hr, hs, i, hf, _⟩
  · exact ⟨_, .reset hr⟩
  · exact ⟨_, .stopped hr hs⟩
  · exact ⟨_, .illegal ⟨hr, hs⟩ hf⟩
  · obtain ⟨t, ht⟩ := exists_instrEffect s i
    exact ⟨t, .instr ⟨hr, hs⟩ hf ht⟩

/-- `StepEffect` is the model's step. -/
theorem step_eq_next_iff {s t : State} : step s = .next t ↔ StepEffect s t := by
  refine ⟨fun h => ?_, step_of_stepEffect⟩
  obtain ⟨u, hu⟩ := exists_stepEffect s
  cases (step_of_stepEffect hu).symm.trans h
  exact hu

/-- Settles O32: some case of `StepEffect` applies to every state. -/
theorem everyStepHasNextState : Obligations.EveryStepHasNextState := by
  unfold Obligations.EveryStepHasNextState
  intro s
  obtain ⟨t, ht⟩ := exists_stepEffect s
  exact ⟨t, step_of_stepEffect ht⟩

end Sys2Proof.Machine
end

section
/-!
PROOF. The invariant holds at reset and every step keeps it, so a run that has ended stands at its cause
(10_state.md R32, 40_execution_cycle.md R107, 60_exceptions.md R201, R203): the obligations O37, O38, O39 and O40.
-/

namespace Sys2Proof.Machine

/-- In RUN nothing is recorded (10_state.md R30, R35). -/
theorem statusFits_of_reset {s : State} (h : s.status = Status.reset) : StatusFits s := by
  simp [StatusFits, h, Status.reset]

theorem status_of_running {s : State} (hi : Inv s) (hrun : Running s) : s.status = Status.reset := by
  have hfits : StatusFits s := hi.status
  rwa [StatusFits, hrun.2] at hfits

theorem statusFits_haltWith {s : State} {k : Byte} (hs : s.status = Status.reset) (hf : fetched s = .insn (.hlt k)) :
    StatusFits (haltWith s k) := by
  refine ⟨?_, hf⟩
  rw [haltWith_status, hs]

theorem statusFits_raiseFault_illegalOpcode {s : State} {o : Byte} (hs : s.status = Status.reset)
    (hf : fetched s = .illegal o) : StatusFits (raiseFault s .illegalOpcode) :=
  ⟨congrArg Status.haltCode hs, rfl, o, hf⟩

theorem statusFits_raiseFault_divByZero {s : State} {a : Byte} (hs : s.status = Status.reset)
    (hf : fetched s = .insn (.div a)) (hz : memRead s a = 0x00) : StatusFits (raiseFault s .divByZero) :=
  ⟨congrArg Status.haltCode hs, rfl, a, hf, hz⟩

/-- No request pends away from an INP (10_state.md R32). -/
theorem inpPending_of_not_fetched_inp {s : State} (hi : Inv s) (hf : ∀ a, fetched s ≠ .insn (.inp a)) :
    s.inpPending = false := by
  rw [← Bool.not_eq_true]
  intro hp
  obtain ⟨_, a, ha⟩ := hi.wait hp
  exact hf a ha

theorem waitFits_of_not_pending {s : State} (h : s.inpPending = false) : WaitFits s := by
  intro hp
  simp [h] at hp

/-- An executed instruction keeps the invariant: most leave RUN with nothing recorded, and the request rises only at
an INP that waits. -/
theorem inv_of_instrEffect {s t : State} {i : Instr} (hi : Inv s) (hrun : Running s) (hf : fetched s = .insn i)
    (he : InstrEffect s i t) : Inv t := by
  have hs : s.status = Status.reset := status_of_running hi hrun
  have pending (hne : ∀ a, i ≠ .inp a) : s.inpPending = false :=
    inpPending_of_not_fetched_inp hi fun a ha => hne a (Decoded.insn.inj (hf.symm.trans ha))
  have runs {u : State} (hd : Memory.wf u.dmem = true) (hp : u.prog = s.prog) (hst : u.status = s.status)
      (hw : u.inpPending = false) : Inv u :=
    ⟨hd, hp ▸ hi.prog, statusFits_of_reset (hst.trans hs), waitFits_of_not_pending hw⟩
  cases he with
  | result hv => exact runs hi.data rfl rfl (pending fun a h => by cases h; cases hv)
  | divByZero hz =>
    exact ⟨hi.data, hi.prog, statusFits_raiseFault_divByZero hs hf hz,
      waitFits_of_not_pending (pending fun a h => by cases h)⟩
  | store => exact runs (memWrite_wf hi.data _ _) rfl rfl (pending fun a h => by cases h)
  | wait => exact ⟨hi.data, hi.prog, statusFits_of_reset hs, fun _ => ⟨hrun.2, _, hf⟩⟩
  | takeValue => exact runs (cellWrite_wf hi.data (addrOf_lt _) _) rfl rfl rfl
  | takeInvalid => exact runs (cellWrite_wf hi.data (addrOf_lt _) _) rfl rfl rfl
  | emit => exact runs hi.data rfl rfl (pending fun a h => by cases h)
  | halt =>
    exact ⟨hi.data, hi.prog, statusFits_haltWith hs hf, waitFits_of_not_pending (pending fun a h => by cases h)⟩
  | taken hj => exact runs hi.data rfl rfl (pending fun a h => by cases h; cases hj)
  | notTaken hj => exact runs hi.data rfl rfl (pending fun a h => by cases h; cases hj)

/-- Settles O38: reset restores the invariant, a stopped block stays as it is, an illegal word records its own cause,
and an executed instruction is `inv_of_instrEffect`. -/
theorem invKeptByStep : Obligations.InvKeptByStep := by
  unfold Obligations.InvKeptByStep
  intro s t hi h
  cases step_eq_next_iff.mp h with
  | reset => exact ⟨holdReset_wf s, hi.prog, statusFits_of_reset rfl, waitFits_of_not_pending rfl⟩
  | stopped => exact hi
  | illegal hrun hf =>
    have hpend : s.inpPending = false :=
      inpPending_of_not_fetched_inp hi fun a ha => by cases hf.symm.trans ha
    exact ⟨hi.data, hi.prog, statusFits_raiseFault_illegalOpcode (status_of_running hi hrun) hf,
      waitFits_of_not_pending hpend⟩
  | instr hrun hf he => exact inv_of_instrEffect hi hrun hf he

/-- Settles O37: `reset_wf` on the two memories, and nothing recorded or pending. -/
theorem invAtReset : Obligations.InvAtReset := by
  unfold Obligations.InvAtReset
  obtain ⟨hd, hp⟩ := reset_wf
  exact ⟨hd, hp, statusFits_of_reset rfl, waitFits_of_not_pending rfl⟩

/-- The invariant holds along every run (40_execution_cycle.md R110). -/
theorem inv_of_run {k : Nat} {s t : State} (hi : Inv s) (h : core.run k s = .next t) : Inv t := by
  refine run_keeps (fun u hu => ?_) k s t hi h
  obtain ⟨v, hv⟩ := everyStepHasNextState u
  exact ⟨v, hv, invKeptByStep u v hu hv⟩

theorem runEnd_eq_halted_iff {s : State} {c : Byte} {os : List Byte} :
    runEnd s = some (.halted c os) ↔ s.status.state = .halted ∧ s.status.haltCode = c ∧ s.outs = os := by
  unfold runEnd
  cases s.status.state <;> simp

theorem runEnd_eq_faulted_iff {s : State} {c : FaultCause} :
    runEnd s = some (.faulted c) ↔ s.status.state = .faulted ∧ s.status.faultCause = c := by
  unfold runEnd
  cases s.status.state <;> simp

/-- A halted block that meets the invariant stands at the HLT that gave the code (40_execution_cycle.md R107). -/
theorem fetched_of_halted {s : State} (hi : Inv s) (hs : s.status.state = .halted) :
    fetched s = .insn (.hlt s.status.haltCode) := by
  have hfits : StatusFits s := hi.status
  rw [StatusFits, hs] at hfits
  exact hfits.2

/-- A faulted block that meets the invariant stands at the cause it records (60_exceptions.md R201, R203). -/
theorem cause_of_faulted {s : State} (hi : Inv s) (hs : s.status.state = .faulted) :
    (s.status.faultCause = .divByZero ∧ DividesByZero s) ∨
    (s.status.faultCause = .illegalOpcode ∧ FetchesIllegal s) := by
  have hfits : StatusFits s := hi.status
  rw [StatusFits, hs] at hfits
  obtain ⟨_, _, hcause⟩ := hfits
  cases hc : s.status.faultCause <;> rw [hc] at hcause
  · exact hcause.elim
  · exact .inl ⟨rfl, hcause⟩
  · exact .inr ⟨rfl, hcause⟩

/-- Settles O39: the end of the run meets the invariant by `inv_of_run`, which `fetched_of_halted` and
`cause_of_faulted` read. -/
theorem endedRunStandsAtItsCause : Obligations.EndedRunStandsAtItsCause := by
  unfold Obligations.EndedRunStandsAtItsCause
  intro k s t hs h
  have hi : Inv t := inv_of_run hs h
  simp only [runEnd_eq_halted_iff, runEnd_eq_faulted_iff, ne_eq]
  refine ⟨?_, ?_, ?_, ?_⟩
  · rintro c os ⟨hst, rfl, rfl⟩
    exact ⟨fetched_of_halted hi hst, rfl⟩
  · rintro ⟨hst, hc⟩
    simpa [hc, FetchesIllegal, DividesByZero] using cause_of_faulted hi hst
  · rintro ⟨hst, hc⟩
    simpa [hc, FetchesIllegal, DividesByZero] using cause_of_faulted hi hst
  · rintro ⟨hst, hc⟩
    have hcause := cause_of_faulted hi hst
    simp [hc] at hcause

/-- `in_req` is high in RUN at an INP (10_state.md R41). -/
theorem portInReq_of_fetched_inp {s : State} {a : Byte} (hrun : Running s) (hf : fetched s = .insn (.inp a)) :
    portInReq s = true := by
  obtain ⟨hr, hs⟩ := hrun
  simp [portInReq, executing, hr, hs, hf]

/-- Settles O40: the invariant has the pending request in RUN at an INP, where `in_req` is high. -/
theorem pendingRequestShowsOnInReq : Obligations.PendingRequestShowsOnInReq := by
  unfold Obligations.PendingRequestShowsOnInReq
  intro s hi hr hp
  obtain ⟨hs, a, hf⟩ := hi.wait hp
  exact ⟨portInReq_of_fetched_inp ⟨hr, hs⟩ hf, by simp [ports, hs], by simp [ports, hs]⟩

end Sys2Proof.Machine
end

section
/-!
PROOF. The decoder on every word, by its two fields (30_encoding.md R76), and the obligations O5 and O7.
-/

namespace Sys2Proof

/-- Settles O7: below the bound the word is legal, and its fields are those of the instruction it encodes; above it,
the decoder answers the opcode field. -/
theorem decoderTotalByOpcodeField : Obligations.DecoderTotalByOpcodeField := by
  unfold Obligations.DecoderTotalByOpcodeField
  intro w
  constructor
  · intro hw
    obtain ⟨i, hi⟩ := decode_of_legalWord (decide_eq_true hw)
    obtain ⟨hopc, himm⟩ := opcode_operand_of_instrOfOpcode (decode_eq_insn_iff.mp hi)
    exact ⟨i, hi, by rw [hopc, opcField_toNat], by rw [himm, immField_toNat]⟩
  · intro hw
    exact ⟨opcField w, Machine.decode_of_opcode_gt hw, opcField_toNat w⟩

/-- Settles O5: the eight legal words are encodings, so `decode_encode` reads them back; the other three lie above the
opcode map. -/
theorem decodeKnownWords : Obligations.DecodeKnownWords := by
  unfold Obligations.DecodeKnownWords
  exact ⟨decode_encode (.add 0x00), decode_encode (.div 0x0B), decode_encode (.ldk 0xFF), decode_encode (.sta 0x0A),
    decode_encode (.inp 0x03), decode_encode (.hlt 0x2A), decode_encode (.jmp 0x80), decode_encode (.jge 0xFF),
    Machine.decode_of_opcode_gt (by decide), Machine.decode_of_opcode_gt (by decide),
    Machine.decode_of_opcode_gt (by decide)⟩

end Sys2Proof
end

section
/-!
PROOF. The reset values (10_state.md R35), the step that runs what it fetched (40_execution_cycle.md R104), the stopped
states (60_exceptions.md R207) and the host's exit status (60_exceptions.md R215): the obligations O1, O3, O30 and O43.
-/

namespace Sys2Proof.Machine

/-- Settles O1: each value is a field of `State.reset`, and the empty memories read zero by `cellRead_nil`. -/
theorem resetStateValues : Obligations.ResetStateValues := by
  unfold Obligations.ResetStateValues
  exact ⟨rfl, rfl, fun n => cellRead_nil n, rfl, rfl, rfl, fun n => cellRead_nil n, rfl, rfl⟩

/-- Settles O3: the decoded slot is `fetched`, so this is `step_of_fetched`. -/
theorem stepRunsFetchedInstr : Obligations.StepRunsFetchedInstr := by
  unfold Obligations.StepRunsFetchedInstr
  intro s i hrun hf
  exact step_of_fetched hrun hf

/-- A state that steps to itself stays for every number of steps. -/
theorem run_of_step_self {s : State} (h : step s = .next s) (k : Nat) : core.run k s = .next s := by
  induction k with
  | zero => exact run_zero s
  | succ k ih => rw [run_succ_of_step h, ih]

/-- Settles O30: a stopped block steps to itself. -/
theorem stoppedStaysStopped : Obligations.StoppedStaysStopped := by
  unfold Obligations.StoppedStaysStopped
  intro s hr hs
  exact run_of_step_self (step_of_stopped hr hs)

/-- A code of at most 127 reads the same signed and unsigned (00_scope.md R12). -/
theorem sval_of_toNat_le {v : Byte} (h : v.toNat ≤ 127) : sval v = v.toNat :=
  BitVec.toInt_eq_toNat_of_lt (by omega)

/-- The exit status of such a code is the code (43_io_halt.md R167). -/
theorem exitStatusOfHalt_of_toNat_le {k : Byte} (h : k.toNat ≤ 127) : exitStatusOfHalt k = k.toNat := by
  have hnonneg : ¬ ((k.toNat : Int) < 0) := by omega
  rw [exitStatusOfHalt, sval_of_toNat_le h, if_neg hnonneg, Int.toNat_natCast]

/-- Settles O43: one clause for each value of `state`, the halt code by `exitStatusOfHalt_of_toNat_le`. -/
theorem exitStatusByEnd : Obligations.ExitStatusByEnd := by
  unfold Obligations.ExitStatusByEnd
  refine fun s => ⟨fun hs => ?run, fun hs => ?faulted, fun hs hk => ?halted⟩
  case run => simp [exitStatus, hs]
  case faulted => simp [exitStatus, hs]
  case halted => simp [exitStatus, hs, exitStatusOfHalt_of_toNat_le hk]

end Sys2Proof.Machine
end

section
/-!
PROOF. INP stores the host's answer or waits for it (43_io_halt.md R160, R161): the obligations O13 and O14.
-/

namespace Sys2Proof.Machine

/-- A Value goes into the cell, and the answer and the request are gone (43_io_halt.md R160). -/
theorem exec_inp_value_of_isNextSlot {s : State} {a v p : Byte} {rest : List Answer} (hp : IsNextSlot s.pc p)
    (hans : s.answers = .value v :: rest) :
    exec (.inp a) s = .next { s with
      dmem := cellWrite s.dmem (addrOf a) v, pc := p, inpPending := false, answers := rest } := by
  rw [exec_of_instrEffect (.takeValue hans), advance_of_isNextSlot (s := memWrite (takeAnswer s rest) a v) hp]
  rfl

/-- Invalid puts the next draw into the cell, and uses it (43_io_halt.md R161). -/
theorem exec_inp_invalid_of_isNextSlot {s : State} {a p : Byte} {rest : List Answer} (hp : IsNextSlot s.pc p)
    (hans : s.answers = .invalid :: rest) :
    exec (.inp a) s = .next { s with
      dmem := cellWrite s.dmem (addrOf a) (Config.inpDraw s.draws), pc := p, inpPending := false, answers := rest
      draws := s.draws + 1 } := by
  rw [exec_of_instrEffect (.takeInvalid hans),
    advance_of_isNextSlot (s := memWrite (useDraw (takeAnswer s rest)) a (drawValue s)) hp]
  rfl

/-- Settles O13: either answer is one write to the data memory, read back by `cellRead_write_same` and
`cellRead_write_other`. -/
theorem inpStoresAnswer : Obligations.InpStoresAnswer := by
  unfold Obligations.InpStoresAnswer
  intro s a p rest hp
  exact ⟨encodedAs_opcodeOf (.inp a),
    fun v hans => ⟨_, exec_inp_value_of_isNextSlot hp hans, cellRead_write_same s.dmem (addrOf a) v,
      fun _ hn => cellRead_write_other s.dmem v hn⟩,
    fun hans => ⟨_, exec_inp_invalid_of_isNextSlot hp hans, cellRead_write_same s.dmem (addrOf a) _,
      fun _ hn => cellRead_write_other s.dmem _ hn⟩⟩

/-- A running INP with no answer raises its request and stays (43_io_halt.md R160, log entry 6). -/
theorem step_of_waiting {s : State} {a : Byte} (hrun : Running s) (hf : fetched s = .insn (.inp a))
    (hans : s.answers = []) : step s = .next (waitForAnswer s) :=
  step_of_stepEffect (.instr hrun hf (.wait hans))

/-- Settles O14: the first step raises the request, and from there the INP waits in the same state. -/
theorem inpWaitsWithoutAnswer : Obligations.InpWaitsWithoutAnswer := by
  unfold Obligations.InpWaitsWithoutAnswer
  intro s a hrun hf hans
  have hself : step (waitForAnswer s) = .next (waitForAnswer s) := step_of_waiting (s := waitForAnswer s) hrun hf hans
  refine ⟨exec_of_instrEffect (.wait hans), fun k => ⟨?_, portInReq_of_fetched_inp (s := waitForAnswer s) hrun hf⟩⟩
  rw [run_succ_of_step (step_of_waiting hrun hf hans)]
  exact run_of_step_self hself k

end Sys2Proof.Machine
end

section
/-!
PROOF. Frames: what each family of instructions leaves as it was (41_arithmetic.md section 4, 42_transfer.md,
43_io_halt.md, 44_control.md R189), and the obligations O19 to O23.
-/

namespace Sys2Proof.Machine

/-- No cell changes where the data memory does not. -/
theorem sameData_of_dmem {s t : State} (h : t.dmem = s.dmem) : SameData s t := memRead_congr h

theorem sameDataExcept_of_sameData {s t : State} (a : Byte) (h : SameData s t) : SameDataExcept a s t :=
  fun b _ => h b

/-- One write to the data memory changes no other cell (20_memory.md R53). -/
theorem sameDataExcept_of_cellWrite {s t : State} {a v : Byte} (h : t.dmem = cellWrite s.dmem (addrOf a) v) :
    SameDataExcept a s t := by
  intro b hb
  rw [memRead_congr (s := memWrite s a v) h, memRead_memWrite_other s v hb]

/-- Settles O19: each of the five is the write of a value to acc and an advance. -/
theorem frameAccumulatorForms : Obligations.FrameAccumulatorForms := by
  unfold Obligations.FrameAccumulatorForms
  intro v s t h
  have hwrite : ∃ x, t = advance (setAcc s x) := by
    rcases h with h | h | h | h | h <;> exact ⟨_, (Host.Outcome.next.inj h).symm⟩
  obtain ⟨x, rfl⟩ := hwrite
  exact ⟨sameData_of_dmem rfl, ⟨rfl, rfl⟩, ⟨rfl, rfl, rfl, rfl⟩, rfl⟩

/-- Settles O20: `execDiv_cases` parts the fault, which writes the status register, from the quotient, which writes
acc and pc. -/
theorem frameDiv : Obligations.FrameDiv := by
  unfold Obligations.FrameDiv
  intro a s t h
  rcases execDiv_cases a s with ⟨hz, he⟩ | ⟨hne, he⟩ <;> cases he.symm.trans h
  · exact ⟨sameData_of_dmem rfl, ⟨rfl, rfl⟩, ⟨rfl, rfl, rfl, rfl⟩, fun hne => absurd hz hne, fun _ => ⟨rfl, rfl, rfl⟩⟩
  · exact ⟨sameData_of_dmem rfl, ⟨rfl, rfl⟩, ⟨rfl, rfl, rfl, rfl⟩, fun _ => rfl, fun hz => absurd hz hne⟩

/-- Settles O21: STA, and an INP that is answered, write one cell; an INP that is not writes none. -/
theorem frameStoringForms : Obligations.FrameStoringForms := by
  unfold Obligations.FrameStoringForms
  intro a s t
  constructor
  · intro h
    cases h
    exact ⟨sameDataExcept_of_cellWrite rfl, rfl, rfl, ⟨rfl, rfl⟩, rfl, rfl, rfl, rfl⟩
  · intro h
    rcases execInp_cases a s with ⟨_, he⟩ | ⟨v, rest, hans, he⟩ | ⟨rest, hans, he⟩ <;> cases he.symm.trans h
    · exact ⟨sameDataExcept_of_sameData a (sameData_of_dmem rfl), rfl, rfl, ⟨rfl, rfl⟩, rfl,
        fun _ => ⟨sameData_of_dmem rfl, rfl⟩⟩
    · exact ⟨sameDataExcept_of_cellWrite rfl, rfl, rfl, ⟨rfl, rfl⟩, rfl, fun hnil => by simp [hans] at hnil⟩
    · exact ⟨sameDataExcept_of_cellWrite rfl, rfl, rfl, ⟨rfl, rfl⟩, rfl, fun hnil => by simp [hans] at hnil⟩

/-- Settles O22: OUT leaves `advance (emitOut …)`, HLT `haltWith`, neither of which touches the rest. -/
theorem frameOutHlt : Obligations.FrameOutHlt := by
  unfold Obligations.FrameOutHlt
  intro v s t
  constructor <;> intro h <;> cases h
  · exact ⟨rfl, sameData_of_dmem rfl, ⟨rfl, rfl⟩, rfl, rfl, rfl, rfl⟩
  · exact ⟨rfl, rfl, sameData_of_dmem rfl, ⟨rfl, rfl⟩, ⟨rfl, rfl, rfl, rfl⟩, rfl, rfl⟩

/-- A jump, taken or not, is an update of pc (44_control.md R189). -/
theorem jumpIf_eq_update_pc (taken : Bool) (v : Byte) (s : State) : ∃ p, jumpIf taken v s = { s with pc := p } := by
  rcases jumpIf_cases taken v s with ⟨_, h⟩ | ⟨_, h⟩
  · exact ⟨v, h⟩
  · exact ⟨_, h⟩

/-- Settles O23: each of the seven is `jumpIf`, which is an update of pc. -/
theorem frameJumps : Obligations.FrameJumps := by
  unfold Obligations.FrameJumps
  intro v s t h
  have hjump : ∃ taken, t = jumpIf taken v s := by
    rcases h with h | h | h | h | h | h | h
    · exact ⟨true, (Host.Outcome.next.inj h).symm⟩
    all_goals exact ⟨_, (Host.Outcome.next.inj h).symm⟩
  obtain ⟨taken, rfl⟩ := hjump
  obtain ⟨p, hp⟩ := jumpIf_eq_update_pc taken v s
  rw [hp]
  exact ⟨rfl, sameData_of_dmem rfl, ⟨rfl, rfl⟩, ⟨rfl, rfl, rfl, rfl⟩, rfl⟩

end Sys2Proof.Machine
end

section
/-!
PROOF. Who writes acc, a data cell and pc while the block runs (10_state.md R21, R24, R26), read off the cases of
`InstrEffect`: the obligations O24, O26 and O28.
-/

namespace Sys2Proof.Machine

/-- Only six instructions have a result for acc (10_state.md R21). -/
theorem accWriter_of_accResult {s : State} {i : Instr} {x : Byte} (h : accResult s i = some x) :
    ∃ v, i = .add v ∨ i = .sub v ∨ i = .mul v ∨ i = .div v ∨ i = .lda v ∨ i = .ldk v := by
  cases i with
  | add a | sub a | mul a | div a | lda a | ldk a => exact ⟨a, by simp⟩
  | _ => cases h

/-- An instruction that changes acc writes its result there. -/
theorem accResult_of_acc_ne {s t : State} {i : Instr} (he : InstrEffect s i t) (hne : t.acc ≠ s.acc) :
    ∃ v, accResult s i = some v := by
  cases he with
  | result hv => exact ⟨_, hv⟩
  | _ => exact absurd rfl hne

/-- Settles O24: a step that changes acc executes an instruction with a result for it. -/
theorem accumulatorWriters : Obligations.AccumulatorWriters := by
  unfold Obligations.AccumulatorWriters
  intro s t hr h hne
  cases step_eq_next_iff.mp h with
  | reset hr' => simp [hr] at hr'
  | stopped => exact absurd rfl hne
  | illegal => exact absurd rfl hne
  | instr hrun hf he =>
    obtain ⟨x, hx⟩ := accResult_of_acc_ne he hne
    rw [hf]
    simpa using accWriter_of_accResult hx

/-- A write to the data memory that changes cell `b` was to cell `b` (20_memory.md R53). -/
theorem eq_of_memRead_cellWrite_ne {s t : State} {a b v : Byte} (hd : t.dmem = cellWrite s.dmem (addrOf a) v)
    (hne : memRead t b ≠ memRead s b) : a = b := by
  by_contra hab
  exact hne (sameDataExcept_of_cellWrite hd b (Ne.symm hab))

/-- Only STA and INP change a data cell, the one at their operand (90_conflicts.md C1). -/
theorem dataWriter_of_memRead_ne {s t : State} {i : Instr} {b : Byte} (he : InstrEffect s i t)
    (hne : memRead t b ≠ memRead s b) : i = .sta b ∨ i = .inp b := by
  cases he with
  | store => exact .inl (congrArg _ (eq_of_memRead_cellWrite_ne rfl hne))
  | takeValue => exact .inr (congrArg _ (eq_of_memRead_cellWrite_ne rfl hne))
  | takeInvalid => exact .inr (congrArg _ (eq_of_memRead_cellWrite_ne rfl hne))
  | _ => exact absurd rfl hne

/-- Settles O26: a step that changes a cell executes an instruction that writes it. -/
theorem dataWriters : Obligations.DataWriters := by
  unfold Obligations.DataWriters
  intro s t b hr h hne
  cases step_eq_next_iff.mp h with
  | reset hr' => simp [hr] at hr'
  | stopped => exact absurd rfl hne
  | illegal => exact absurd rfl hne
  | instr hrun hf he =>
    rw [hf]
    simpa using dataWriter_of_memRead_ne he hne

/-- The jumps are the opcodes from 0x0A on (30_encoding.md R73). -/
theorem opcodeOf_of_jumpTaken {acc : Byte} {i : Instr} {taken : Bool} (h : jumpTaken acc i = some taken) :
    0x0A ≤ (opcodeOf i).toNat := by
  cases i <;> simp [jumpTaken, opcodeOf] at h ⊢

theorem isNextSlot_advance (s : State) : IsNextSlot s.pc (advance s).pc := toNat_trunc8_uval_add_one s.pc

/-- Settles O28: an executed instruction advances, redirects as a jump, stops the block or waits; a stopped block and
an illegal word leave pc. -/
theorem pcMovesThreeWays : Obligations.PcMovesThreeWays := by
  unfold Obligations.PcMovesThreeWays
  intro s t hr h
  cases step_eq_next_iff.mp h with
  | reset hr' => simp [hr] at hr'
  | stopped _ hs => exact .inr (.inr ⟨rfl, .inl hs⟩)
  | illegal => exact .inr (.inr ⟨rfl, .inl (by simp)⟩)
  | instr hrun hf he =>
    cases he with
    | divByZero => exact .inr (.inr ⟨rfl, .inl (by simp)⟩)
    | halt => exact .inr (.inr ⟨rfl, .inl (by simp)⟩)
    | wait hans => exact .inr (.inr ⟨rfl, .inr ⟨rfl, hans⟩⟩)
    | taken hj => exact .inr (.inl ⟨_, _, hf, rfl, rfl, opcodeOf_of_jumpTaken hj⟩)
    | _ => exact .inl (isNextSlot_advance s)

end Sys2Proof.Machine
end

section
/-!
PROOF. The host's side of a step (20_memory.md section 6): which event it emits, which answer it takes, and what it
does not read (10_state.md R21, R33, 43_io_halt.md R161): the obligations O25, O33, O34 and O35.
-/

namespace Sys2Proof.Machine

/-- The output port is driven at an OUT only (10_state.md R41). -/
theorem portOut_of_not_fetched_out {s : State} (hne : ∀ a, fetched s ≠ .insn (.out a)) : portOut s = none := by
  unfold portOut
  split
  · split
    · next a hf => exact absurd hf (hne a)
    · rfl
  · rfl

/-- A stopped block emits nothing (40_execution_cycle.md R100). -/
theorem portOut_of_stopped {s : State} (hs : s.status.state ≠ .run) : portOut s = none := by
  simp [portOut, executing, hs]

/-- No instruction but OUT touches the events or depends on them (10_state.md R33). -/
theorem instrEffect_withOuts {s t : State} {i : Instr} (hne : ∀ a, i ≠ .out a) (he : InstrEffect s i t)
    (l : List Byte) : t.outs = s.outs ∧ InstrEffect { s with outs := l } i { t with outs := l } := by
  cases he with
  | result hv => exact ⟨rfl, .result (s := { s with outs := l }) hv⟩
  | divByZero hz => exact ⟨rfl, .divByZero (s := { s with outs := l }) hz⟩
  | store => exact ⟨rfl, .store (s := { s with outs := l })⟩
  | wait hans => exact ⟨rfl, .wait (s := { s with outs := l }) hans⟩
  | takeValue hans => exact ⟨rfl, .takeValue (s := { s with outs := l }) hans⟩
  | takeInvalid hans => exact ⟨rfl, .takeInvalid (s := { s with outs := l }) hans⟩
  | emit => exact absurd rfl (hne _)
  | halt => exact ⟨rfl, .halt (s := { s with outs := l })⟩
  | taken hj => exact ⟨rfl, .taken (s := { s with outs := l }) hj⟩
  | notTaken hj => exact ⟨rfl, .notTaken (s := { s with outs := l }) hj⟩

/-- A step appends the event on its port to the events received, and does the same after any others. -/
theorem stepEffect_withOuts {s t : State} (h : StepEffect s t) (l : List Byte) :
    t.outs = s.outs ++ (portOut s).toList ∧
      StepEffect { s with outs := l } { t with outs := l ++ (portOut s).toList } := by
  have silent (hport : portOut s = none)
      (hkept : t.outs = s.outs ∧ StepEffect { s with outs := l } { t with outs := l }) :
      t.outs = s.outs ++ (portOut s).toList ∧
        StepEffect { s with outs := l } { t with outs := l ++ (portOut s).toList } := by
    simpa [hport] using hkept
  cases h with
  | reset hr => exact silent (portOut_of_rst_high hr) ⟨rfl, .reset (s := { s with outs := l }) hr⟩
  | stopped hr hs => exact silent (portOut_of_stopped hs) ⟨rfl, .stopped hr hs⟩
  | illegal hrun hf =>
    have hport : portOut s = none := portOut_of_not_fetched_out fun a ha => by cases hf.symm.trans ha
    exact silent hport ⟨rfl, .illegal (s := { s with outs := l }) hrun hf⟩
  | instr hrun hf he =>
    rename_i i
    by_cases hout : ∃ a, i = .out a
    · obtain ⟨a, rfl⟩ := hout
      cases exec_of_instrEffect he
      rw [portOut_of_fetched_out hrun hf]
      exact ⟨rfl, .instr (s := { s with outs := l }) hrun hf .emit⟩
    · have hne : ∀ a, i ≠ .out a := fun a ha => hout ⟨a, ha⟩
      obtain ⟨hkept, he'⟩ := instrEffect_withOuts hne he l
      have hport : portOut s = none :=
        portOut_of_not_fetched_out fun a ha => hne a (Decoded.insn.inj (hf.symm.trans ha))
      exact silent hport ⟨hkept, .instr hrun hf he'⟩

/-- An answer is taken by an INP only, the oldest one (43_io_halt.md R160). -/
theorem answers_of_instrEffect {s t : State} {i : Instr} (he : InstrEffect s i t) :
    t.answers = s.answers ∨ ((∃ a, i = .inp a) ∧ ∃ x, s.answers = x :: t.answers) := by
  cases he with
  | takeValue hans => exact .inr ⟨⟨_, rfl⟩, _, hans⟩
  | takeInvalid hans => exact .inr ⟨⟨_, rfl⟩, _, hans⟩
  | _ => exact .inl rfl

/-- Settles O33: the events are `stepEffect_withOuts`; an INP that takes an answer has `in_req` high. -/
theorem hostEventsInOrder : Obligations.HostEventsInOrder := by
  unfold Obligations.HostEventsInOrder
  intro s t h
  have hs : StepEffect s t := step_eq_next_iff.mp h
  refine ⟨(stepEffect_withOuts hs []).1, ?_⟩
  cases hs with
  | reset => exact .inl rfl
  | stopped => exact .inl rfl
  | illegal => exact .inl rfl
  | instr hrun hf he =>
    rcases answers_of_instrEffect he with hkept | ⟨⟨a, rfl⟩, htaken⟩
    · exact .inl hkept
    · exact .inr ⟨portInReq_of_fetched_inp hrun hf, htaken⟩

/-- Settles O34: the second half of `stepEffect_withOuts`. -/
theorem outEventsNotRead : Obligations.OutEventsNotRead := by
  unfold Obligations.OutEventsNotRead
  intro s t l h
  exact step_of_stepEffect (stepEffect_withOuts (step_eq_next_iff.mp h) l).2

/-- Unless it is an INP answered Invalid, an instruction neither uses nor reads the counter of draws (log entry 7). -/
theorem instrEffect_withDraws {s t : State} {i : Instr} (he : InstrEffect s i t)
    (hne : ∀ a rest, i = .inp a → s.answers ≠ .invalid :: rest) (d : Nat) :
    t.draws = s.draws ∧ InstrEffect { s with draws := d } i { t with draws := d } := by
  cases he with
  | result hv => exact ⟨rfl, .result (s := { s with draws := d }) hv⟩
  | divByZero hz => exact ⟨rfl, .divByZero (s := { s with draws := d }) hz⟩
  | store => exact ⟨rfl, .store (s := { s with draws := d })⟩
  | wait hans => exact ⟨rfl, .wait (s := { s with draws := d }) hans⟩
  | takeValue hans => exact ⟨rfl, .takeValue (s := { s with draws := d }) hans⟩
  | takeInvalid hans => exact absurd hans (hne _ _ rfl)
  | emit => exact ⟨rfl, .emit (s := { s with draws := d })⟩
  | halt => exact ⟨rfl, .halt (s := { s with draws := d })⟩
  | taken hj => exact ⟨rfl, .taken (s := { s with draws := d }) hj⟩
  | notTaken hj => exact ⟨rfl, .notTaken (s := { s with draws := d }) hj⟩

/-- Settles O35: reset, no step and an illegal word use no draw, and an executed instruction is
`instrEffect_withDraws`. -/
theorem drawUsedOnlyByInvalidInp : Obligations.DrawUsedOnlyByInvalidInp := by
  unfold Obligations.DrawUsedOnlyByInvalidInp
  intro s t d h hne
  rw [step_eq_next_iff]
  cases step_eq_next_iff.mp h with
  | reset hr => exact ⟨rfl, .reset (s := { s with draws := d }) hr⟩
  | stopped hr hs => exact ⟨rfl, .stopped hr hs⟩
  | illegal hrun hf => exact ⟨rfl, .illegal (s := { s with draws := d }) hrun hf⟩
  | instr hrun hf he =>
    obtain ⟨hkept, he'⟩ := instrEffect_withDraws he (fun a rest hi => hne a rest (hi ▸ hf)) d
    exact ⟨hkept, .instr hrun hf he'⟩

/-- Settles O25: OUT, HLT and JMP leave one state, and `execInp_cases` gives the three of an INP; each is the same
update whatever acc holds. -/
theorem accumulatorNotReadByIoHaltJmp : Obligations.AccumulatorNotReadByIoHaltJmp := by
  unfold Obligations.AccumulatorNotReadByIoHaltJmp
  rintro v x s t i (rfl | rfl | rfl | rfl) h
  · rcases execInp_cases v s with ⟨hans, hs⟩ | ⟨w, rest, hans, hs⟩ | ⟨rest, hans, hs⟩ <;> cases hs.symm.trans h
    · exact exec_of_instrEffect (.wait (s := { s with acc := x }) hans)
    · exact exec_of_instrEffect (.takeValue (s := { s with acc := x }) hans)
    · exact exec_of_instrEffect (.takeInvalid (s := { s with acc := x }) hans)
  all_goals
    cases h
    rfl

end Sys2Proof.Machine
end

section
/-!
PROOF. No hazard (70_reset_and_hazards.md R240): a cell just written is read by the next instruction, an acc just
written is what the next conditional jump compares, and a jump's target is the slot fetched next; the obligation O36.
-/

namespace Sys2Proof.Machine

theorem isNextSlot_add_one (pc : Byte) : IsNextSlot pc (pc + 1) := by
  rw [IsNextSlot, BitVec.toNat_add]
  rfl

/-- A LDA and an OUT of a cell take what it holds (42_transfer.md R140, 43_io_halt.md R164). -/
theorem loadsAndEmits_of_cellRead {a x : Byte} {t : State} (h : cellRead t.dmem a.toNat = x) :
    LoadsAndEmits a x t := by
  subst h
  exact ⟨rfl, exec_lda_of_isNextSlot (isNextSlot_add_one t.pc) a, exec_out_of_isNextSlot (isNextSlot_add_one t.pc) a⟩

/-- The conditional jumps compare what acc holds (44_control.md R180). -/
theorem branchesOn_of_acc {x : Byte} {t : State} (h : t.acc = x) : BranchesOn x t := by
  subst h
  intro v
  have hp : IsNextSlot t.pc (t.pc + 1) := isNextSlot_add_one t.pc
  exact ⟨exec_jumpIf_of_isNextSlot rfl hp condEZ_iff, exec_jumpIf_of_isNextSlot rfl hp condNE_iff,
    exec_jumpIf_of_isNextSlot rfl hp condLZ_iff, exec_jumpIf_of_isNextSlot rfl hp condLE_iff,
    exec_jumpIf_of_isNextSlot rfl hp condGZ_iff, exec_jumpIf_of_isNextSlot rfl hp condGE_iff⟩

/-- `trunc_8` gives the only pattern with the value modulo 256 (00_scope.md R12). -/
theorem trunc8_eq_of_toNat_eq {x : Byte} {n : Int} (h : (x.toNat : Int) = n % 256) : trunc8 n = x := by
  have hn := toNat_trunc8 n
  exact BitVec.eq_of_toNat_eq (by omega)

/-- An instruction with the low byte of `n` as its result leaves that to the conditional jumps. -/
theorem branchesOn_of_accResult {s t : State} {i : Instr} {x : Byte} {n : Int}
    (hres : accResult s i = some (trunc8 n)) (h : exec i s = .next t) (hx : (x.toNat : Int) = n % 256) :
    BranchesOn x t := by
  cases (exec_of_accResult hres).symm.trans h
  exact branchesOn_of_acc (trunc8_eq_of_toNat_eq hx)

/-- A jump, taken or not, fetches the slot it goes to from the program store as it was (44_control.md R189). -/
theorem fetch_jumpIf (taken : Bool) (v : Byte) (s : State) :
    fetch (jumpIf taken v s) = cellRead s.prog (jumpIf taken v s).pc.toNat ∧
      ((jumpIf taken v s).pc = v ∨ IsNextSlot s.pc (jumpIf taken v s).pc) := by
  rcases jumpIf_cases taken v s with ⟨_, h⟩ | ⟨_, h⟩ <;> rw [h]
  · exact ⟨rfl, .inl rfl⟩
  · exact ⟨rfl, .inr (isNextSlot_advance s)⟩

/-- Settles O36: the stores by `loadsAndEmits_of_cellRead`, the writers of acc by `branchesOn_of_accResult`, the jumps
by `fetch_jumpIf`. -/
theorem noHazards : Obligations.NoHazards := by
  unfold Obligations.NoHazards
  rintro s t a v _ x rest rfl
  refine ⟨?sta, ?inpValue, ?inpInvalid, ?ldk, ?lda, branchesOn_of_accResult (i := .add a) rfl,
    branchesOn_of_accResult (i := .sub a) rfl, branchesOn_of_accResult (i := .mul a) rfl, ?div, ?jmp, ?branch⟩
  case sta =>
    intro h
    cases h
    exact loadsAndEmits_of_cellRead (cellRead_write_same s.dmem (addrOf a) s.acc)
  case inpValue =>
    intro hans h
    cases (exec_of_instrEffect (.takeValue hans)).symm.trans h
    exact loadsAndEmits_of_cellRead (cellRead_write_same s.dmem (addrOf a) v)
  case inpInvalid =>
    intro hans h
    cases (exec_of_instrEffect (.takeInvalid hans)).symm.trans h
    exact loadsAndEmits_of_cellRead (cellRead_write_same s.dmem (addrOf a) (drawValue s))
  case ldk =>
    intro h
    cases h
    exact branchesOn_of_acc rfl
  case lda =>
    intro h
    cases h
    exact branchesOn_of_acc rfl
  case div =>
    intro hne
    rw [← tdiv_eq]
    exact branchesOn_of_accResult (i := .div a) (if_neg hne)
  case jmp =>
    intro h
    cases h
    rfl
  case branch =>
    intro h
    have hjump : ∃ taken, t = jumpIf taken v s := by
      rcases h with h | h | h | h | h | h <;> exact ⟨_, (Host.Outcome.next.inj h).symm⟩
    obtain ⟨taken, rfl⟩ := hjump
    exact fetch_jumpIf taken v s

end Sys2Proof.Machine
end

section
/-!
PROOF. One clock with the host's pins (10_state.md R41, 70_reset_and_hazards.md R230, 60_exceptions.md R214): the
obligations O41 and O48.
-/

namespace Sys2Proof.Machine

/-- A clock with no answer on the pins is the step at the level of its `rst` pin (70_reset_and_hazards.md R245). -/
theorem clock_of_no_answer (r : Bool) (d : Byte) (s : State) :
    clock { rst := r, inValid := false, inInvalid := false, inData := d } s = step { s with rst := r } := rfl

/-- One answer to a request is the step that sees it (10_state.md R41). -/
theorem clock_of_requested_answer {p : Pins} {s : State} (hone : p.inInvalid = !p.inValid)
    (hreq : portInReq { s with rst := p.rst } = true) (hans : s.answers = []) :
    clock p s = step { s with rst := p.rst, answers := [p.answer] } := by
  have hasks : (portInReq { s with rst := p.rst } && s.answers.isEmpty) = true := by rw [hreq, hans]; rfl
  rw [clock, if_neg (by simp [hone]), if_pos (by simp [hone]), if_pos hasks]

/-- A second answer to one request is outside the interface (60_exceptions.md R214). -/
theorem clock_refused_of_answered {p : Pins} {s : State} (hans : s.answers ≠ [])
    (hpin : p.inValid = true ∨ p.inInvalid = true) : clock p s = .refused .hostOutsideInterface := by
  unfold clock
  by_cases hboth : (p.inValid && p.inInvalid) = true
  · exact if_pos hboth
  · rw [if_neg hboth, if_pos (by simpa using hpin)]
    simp [hans]

/-- One answer in a clock with `rst` low, at a running INP that asks: the step is the INP with that answer. -/
theorem clock_of_fetched_inp {p : Pins} {s : State} {a : Byte} (hr : p.rst = false)
    (hone : p.inInvalid = !p.inValid) (hs : s.status.state = .run) (hf : fetched s = .insn (.inp a))
    (hans : s.answers = []) : clock p s = exec (.inp a) { s with rst := false, answers := p.answer :: s.answers } := by
  have hreq : portInReq { s with rst := p.rst } = true := portInReq_of_fetched_inp ⟨hr, hs⟩ hf
  rw [clock_of_requested_answer hone hreq hans, hr, hans]
  exact step_of_fetched ⟨rfl, hs⟩ hf

/-- Settles O41: an answer that is asked for is `clock_of_fetched_inp`, and what it writes is read back by
`cellRead_write_same` and `cellRead_write_other`; the others are refused. -/
theorem hostAnswersOnPins : Obligations.HostAnswersOnPins := by
  unfold Obligations.HostAnswersOnPins
  intro s d a p hp
  refine ⟨fun hs hf hans => ⟨?value, ?invalid⟩, rfl, fun hno => ?refused, clock_of_no_answer false d s⟩
  case value =>
    refine ⟨cellWrite s.dmem (addrOf a) d, ?_, cellRead_write_same _ _ _, fun _ hn => cellRead_write_other _ _ hn⟩
    rw [clock_of_fetched_inp rfl rfl hs hf hans]
    exact exec_inp_value_of_isNextSlot hp rfl
  case invalid =>
    refine ⟨cellWrite s.dmem (addrOf a) (Config.inpDraw s.draws), ?_, cellRead_write_same _ _ _,
      fun _ hn => cellRead_write_other _ _ hn⟩
    rw [clock_of_fetched_inp rfl rfl hs hf hans]
    exact exec_inp_invalid_of_isNextSlot hp rfl
  case refused =>
    rcases hno with hreq | hans
    · exact ⟨clock_refused_of_no_request hreq (.inl rfl), clock_refused_of_no_request hreq (.inr rfl)⟩
    · exact ⟨clock_refused_of_answered hans (.inl rfl), clock_refused_of_answered hans (.inr rfl)⟩

/-- Settles O48: with the pin high the clock is `clock_of_rst_high`, and an answer meets no request; with it low it is
the step of the same state with reset released. -/
theorem clockFollowsResetPin : Obligations.ClockFollowsResetPin := by
  unfold Obligations.ClockFollowsResetPin
  intro s d e
  refine ⟨?high, ?answered, fun hs => ⟨?runs, ?faults⟩, ?stopped⟩
  case high =>
    exact ⟨holdReset { s with rst := true }, clock_of_rst_high d s, rfl, rfl, rfl, fun n => cellRead_nil n, rfl, rfl,
      portInReq_of_rst_high rfl, portOut_of_rst_high rfl, rfl, rfl, rfl, rfl,
      fun i hi => step_of_fetched (s := { holdReset s with rst := false }) ⟨rfl, rfl⟩ hi⟩
  case answered =>
    intro v i u hpin h
    have hreq : portInReq { s with rst := true } = false := portInReq_of_rst_high rfl
    cases (clock_refused_of_no_request hreq hpin).symm.trans h
  case runs => exact fun i hi => step_of_fetched (s := { s with rst := false }) ⟨rfl, hs⟩ hi
  case faults => exact fun hopc => illegalWordFaults { s with rst := false } ⟨rfl, hs⟩ hopc
  case stopped => exact fun hs => step_of_stopped (s := { s with rst := false }) rfl hs

end Sys2Proof.Machine
end

section
/-!
PROOF. The program store an image gives: slot n holds word n, the others the zero word, in canonical form (10_state.md
R25, 30_encoding.md R92); the obligations O45 and O47.
-/

namespace Sys2Proof.Machine

/-- Below its first slot an image lists nothing. -/
theorem cellRead_imageFrom_of_lt {i n : Nat} (ws : List Word) (h : n < i) :
    cellRead (imageFrom i ws) n = unlisted 16 := by
  induction ws generalizing i with
  | nil => rfl
  | cons w rest ih =>
    have hrest : cellRead (imageFrom (i + 1) rest) n = unlisted 16 := ih (by omega)
    unfold imageFrom
    split
    · exact hrest
    · rw [cellRead_cons, if_neg (by omega), hrest]

/-- Word `n` of an image stands `n` slots from its first, and beyond its last stands the zero word (10_state.md R25). -/
theorem cellRead_imageFrom (i n : Nat) (ws : List Word) :
    cellRead (imageFrom i ws) (i + n) = ws.getD n (unlisted 16) := by
  induction ws generalizing i n with
  | nil => rfl
  | cons w rest ih =>
    have hhead : cellRead (imageFrom (i + 1) rest) i = unlisted 16 := cellRead_imageFrom_of_lt rest (by omega)
    have htail (m : Nat) : cellRead (imageFrom (i + 1) rest) (i + (m + 1)) = rest.getD m (unlisted 16) := by
      rw [← ih (i + 1) m, Nat.add_right_comm, Nat.add_assoc]
    unfold imageFrom
    split
    · next hw =>
      cases n with
      | zero => simpa [hw] using hhead
      | succ m => simpa using htail m
    · cases n with
      | zero => simp [cellRead_cons]
      | succ m => simpa [cellRead_cons] using htail m

theorem cellRead_imageFrom_zero (n : Nat) (ws : List Word) :
    cellRead (imageFrom 0 ws) n = ws.getD n (unlisted 16) := by
  simpa using cellRead_imageFrom 0 n ws

/-- What an image lists lies in its own slots and is not the zero word. -/
theorem mem_imageFrom {i : Nat} {ws : List Word} {c : Nat × Word} (hc : c ∈ imageFrom i ws) :
    i ≤ c.1 ∧ c.1 < i + ws.length ∧ c.2 ≠ unlisted 16 := by
  induction ws generalizing i with
  | nil => cases hc
  | cons w rest ih =>
    have later (h : c ∈ imageFrom (i + 1) rest) : i ≤ c.1 ∧ c.1 < i + (w :: rest).length ∧ c.2 ≠ unlisted 16 := by
      obtain ⟨hlo, hhi, hne⟩ := ih h
      rw [List.length_cons]
      exact ⟨by omega, by omega, hne⟩
    unfold imageFrom at hc
    split at hc
    · exact later hc
    · next hw =>
      rcases List.mem_cons.mp hc with rfl | hc
      · exact ⟨Nat.le_refl _, by simp, hw⟩
      · exact later hc

theorem imageFrom_pairwise (i : Nat) (ws : List Word) : (imageFrom i ws).Pairwise (fun c d => c.1 < d.1) := by
  induction ws generalizing i with
  | nil => exact List.Pairwise.nil
  | cons w rest ih =>
    unfold imageFrom
    split
    · exact ih (i + 1)
    · exact List.pairwise_cons.mpr ⟨fun c hc => (mem_imageFrom hc).1, ih (i + 1)⟩

/-- An image that fits is in canonical form. -/
theorem imageFrom_wf {ws : List Word} (h : ws.length ≤ 256) : ProgramStore.wf (imageFrom 0 ws) = true := by
  refine (cellsWf_iff _).mpr ⟨imageFrom_pairwise 0 ws, fun c hc => ?_⟩
  obtain ⟨_, hhi, hne⟩ := mem_imageFrom hc
  exact ⟨by omega, hne⟩

/-- Slot `n` of a program's image holds the word of instruction `n`, and the zero word beyond the last. -/
theorem cellRead_programImage (is : List Instr) (n : Nat) :
    cellRead (programImage is) n = (is[n]?.map encode).getD (unlisted 16) := by
  rw [programImage, programWords, cellRead_imageFrom_zero, List.getD_eq_getElem?_getD, List.getElem?_map]

/-- An instruction's word is legal (30_encoding.md R75, R77). -/
theorem legalWord_encode (i : Instr) : legalWord (encode i) = true := by
  have hopc : (opcodeOf i).toNat ≤ 16 := by cases i <;> simp [opcodeOf]
  exact (Laws.encodedFields_of_opcode hopc).2.2

/-- Settles O45: the slots are `cellRead_programImage`, whose words are legal, and the canonical form is
`imageFrom_wf`. -/
theorem programImageSlots : Obligations.ProgramImageSlots := by
  unfold Obligations.ProgramImageSlots
  intro is hlen
  refine ⟨fun n i hi => ?_, fun n hn => ?_, fun n => ?_, imageFrom_wf (by simpa [programWords] using hlen)⟩
  · rw [cellRead_programImage, hi]
    rfl
  · rw [cellRead_programImage, List.getElem?_eq_none hn]
    rfl
  · rw [cellRead_programImage]
    cases is[n]? with
    | none => rfl
    | some i => exact legalWord_encode i

/-- While `rst` is high the host's load of a slot is a write to the program store (60_exceptions.md R214). -/
theorem hostLoad_of_rst_high {s : State} (hr : s.rst = true) (slot : Byte) (w : Word) :
    hostLoad slot w s = .next (storeSlot s slot w) := if_pos hr

/-- While `rst` is high the host may load an image exactly when it fits (60_exceptions.md R214, log entry 11). -/
theorem hostLoadImage_of_rst_high {s : State} (hr : s.rst = true) (ws : List Word) :
    hostLoadImage ws s =
      if ws.length ≤ 256 then .next { s with prog := imageFrom 0 ws } else .refused .hostOutsideInterface := by
  simp [hostLoadImage, hr, imageFits]

/-- Settles O47: one slot is `cellWrite`, read back by `cellRead_write_same` and `cellRead_write_other`; an image that
fits is read back by `cellRead_imageFrom_zero`, and one that does not is refused. -/
theorem hostLoadsUnderReset : Obligations.HostLoadsUnderReset := by
  unfold Obligations.HostLoadsUnderReset
  refine fun s hr => ⟨fun slot w => ?slot, fun ws => ⟨fun hfits => ?image, fun hlong t h => ?tooLong⟩⟩
  case slot =>
    exact ⟨cellWrite s.prog (uval slot) w, hostLoad_of_rst_high hr slot w, cellRead_write_same _ _ _,
      fun _ hn => cellRead_write_other _ _ hn⟩
  case image =>
    refine ⟨imageFrom 0 ws, by rw [hostLoadImage_of_rst_high hr, if_pos hfits], fun n w hw => ?_, fun n hn => ?_⟩
    · rw [cellRead_imageFrom_zero, List.getD_eq_getElem?_getD, hw, Option.getD_some]
    · rw [cellRead_imageFrom_zero, List.getD_eq_default _ _ hn]
      rfl
  case tooLong =>
    rw [hostLoadImage_of_rst_high hr, if_neg (by omega)] at h
    cases h

end Sys2Proof.Machine
end

section
/-!
PROOF. The assembler stops at the cap (30_encoding.md R89), and an operand is its literal's low 8 bits (30_encoding.md
R87, R88): the obligations O44 and O46.
-/

namespace Sys2Proof.Machine

/-- With no slot left, no line is examined (30_encoding.md R89). -/
theorem assembleLines_no_room (lines : List (List Char)) : assembleLines 0 lines = .program [] := by
  cases lines <;> rfl

theorem cons_eq_program_iff {i : Instr} {r : AsmResult} {is : List Instr} :
    r.cons i = .program is ↔ ∃ js, r = .program js ∧ is = i :: js := by
  cases r <;> simp [AsmResult.cons, eq_comm]

/-- A program fits the slots that are left, and where it takes them all, further lines are not examined
(30_encoding.md R89). -/
theorem assembleLines_cap {room : Nat} {lines : List (List Char)} {is : List Instr}
    (h : assembleLines room lines = .program is) :
    is.length ≤ room ∧ (is.length = room → ∀ more, assembleLines room (lines ++ more) = .program is) := by
  induction lines generalizing room is with
  | nil =>
    cases h
    refine ⟨Nat.zero_le _, ?_⟩
    rintro rfl more
    exact assembleLines_no_room more
  | cons l rest ih =>
    cases room with
    | zero =>
      rw [assembleLines_no_room] at h
      cases h
      exact ⟨Nat.le_refl _, fun _ more => assembleLines_no_room _⟩
    | succ room =>
      simp only [assembleLines, List.cons_append, Nat.add_one_ne_zero, if_false, Nat.add_sub_cancel] at h ⊢
      split at h
      · cases h
      · next hl =>
        obtain ⟨hle, hmore⟩ := ih h
        exact ⟨hle, hmore⟩
      · next i hl =>
        obtain ⟨js, hjs, rfl⟩ := cons_eq_program_iff.mp h
        obtain ⟨hle, hmore⟩ := ih hjs
        refine ⟨Nat.succ_le_succ hle, fun hlen more => ?_⟩
        exact cons_eq_program_iff.mpr ⟨js, hmore (Nat.succ.inj hlen) more, rfl⟩

/-- Settles O44: `assembleLines_cap` with all 256 slots left. -/
theorem assemblerStopsAtCap : Obligations.AssemblerStopsAtCap := by
  unfold Obligations.AssemblerStopsAtCap
  intro lines more is h
  obtain ⟨hle, hmore⟩ := assembleLines_cap h
  exact ⟨hle, fun hlen => hmore hlen more⟩

/-- An operand depends on what reading its literal gives, and on nothing else of the token (30_encoding.md R87). -/
theorem operandOfToken_congr {token token' : List Char} (h : readLiteral token = readLiteral token') :
    operandOfToken token = operandOfToken token' := by
  simp only [operandOfToken, parseLiteral, literalText, h]

/-- The parser's integer type holds every 32-bit value (log entry 13). -/
theorem not_32_bit_of_not_parserHolds {n : Int} (h : parserHolds n = false) : n < -2147483648 ∨ 2147483647 < n := by
  have hfits : fitsSigned 32 n = false := (Bool.or_eq_false_iff.mp h).1
  simp only [fitsSigned, Bool.and_eq_false_iff, decide_eq_false_iff_not] at hfits
  omega

/-- Settles O46: the literal begins its token and reads as the token does by `literalText_prefix_reads`; a value that
the parser's type holds is truncated, read by `toNat_trunc8`, and any other lies outside the 32-bit range. -/
theorem operandLiteralTruncates : Obligations.OperandLiteralTruncates := by
  unfold Obligations.OperandLiteralTruncates
  intro token
  obtain ⟨htext, hreads⟩ := literalText_prefix_reads token
  refine ⟨htext, operandOfToken_congr hreads.symm, fun hnone => ?none, fun n hn => ?some⟩
  case none => simp only [operandOfToken, hnone]
  case some =>
    cases hholds : parserHolds n
    · refine .inr ⟨not_32_bit_of_not_parserHolds hholds, ?_⟩
      simp only [operandOfToken, hn, hholds]
      rfl
    · exact .inl ⟨trunc8 n, by simp only [operandOfToken, hn, hholds, if_true], toNat_trunc8 n⟩

end Sys2Proof.Machine
end
